-- ==== Sys2Proof/Word.lean ====
section
/-! DEFINITION. The two widths every value of the model is made of (00_scope.md rules R7, R8 and R9): a command word and
every readable register are 32 bits wide, a byte is 8 bits wide. All values are unsigned (rule R8). -/

namespace Sys2Proof

/-- A 32-bit word: a command word (`CMD_W`, rule R7), a readable register (`REG_W`) and a SHA-1 word (rule R163). -/
abbrev Word := BitVec 32

/-- A byte (rule R9). -/
abbrev Byte := BitVec 8

end Sys2Proof
end

