-- ==== Sys2Proof/Config.lean ====
section
/-! DEFINITION. What is fixed for this hardware: the constants the source fixes (00_scope.md rule R6) and the implementation
parameters (R7) that the machine or its statements need. -/

namespace Sys2Proof

/-- `KEY_CAP`, the capacity of the key buffer in bytes: 128 for this hardware (R7, decision D10; log entry 6). -/
def Config.keyCap : Nat := 128

/-- `PERIOD`, in seconds (R6, R148). -/
def Config.period : Nat := 30

/-- `DIGITS`, the length of a code (R6). -/
def Config.digits : Nat := 6

/-- `MODULUS` = 10^6 (R6, R195). -/
def Config.modulus : Nat := 1000000

/-- How far `GEN_LAT_MAX` lies above its least value 1. The spec leaves it to the implementation (R7, R270, decision D19),
so it has no body: no proof can see a number for it (log entry 5). -/
opaque Config.genLatExtra : Nat

/-- `GEN_LAT_MAX`, a finite positive bound on GEN latency (R7, R12). No meaning depends on its value (R270); only
Safety.lean's `WithinLatency` names it (log entry 5). -/
def Config.genLatMax : Nat := Config.genLatExtra + 1

end Sys2Proof
end

