-- ==== Sys2Proof/Syntax.lean ====
section
/-! DEFINITION. The command set (30_encoding.md rules R71 and R75), one constructor for each row of spec/opcode_table.json.
A command names no register; its only operands are the immediate fields of its word (10_state.md rule R20). -/

namespace Sys2Proof

/-- A command of OTP-CORE. Each operand has exactly the width of its field, so an operand out of range cannot be written. -/
inductive Instr where
  /-- `NOP`, format Z (R100). -/
  | nop
  /-- `CLR`, format Z (R101). -/
  | clr
  /-- `SYM CH`, format B: one character byte of the secret (R72, R113). -/
  | sym (ch : Byte)
  /-- `LDT Q, IMM16`, format Q: quarter `Q` of TIME (R73, R141). -/
  | ldt (q : BitVec 2) (imm : BitVec 16)
  /-- `GEN` (`next = false`, N = 0) and `GEN next` (`next = true`, N = 1), format F (R74, R190). -/
  | gen (next : Bool)
deriving DecidableEq, Repr

end Sys2Proof
end

