-- ==== Sys2Proof/WellFormed.lean ====
section
/-! DEFINITION. Which terms are well formed. A command's operands have the widths of their fields, so every `Instr` is well
formed. A line of assembly takes plain numbers (30_encoding.md rules R78 to R80), and "An operand out of range is an
assembly error; the assembler emits no word for it": those are the checks here. -/

namespace Sys2Proof

/-- Every command is well formed: `CH` is 0..255, `Q` is 0..3, `IMM16` is 0..65535 and `N` is 0 or 1 by their types (R71, R78). -/
def Instr.wellFormed : Instr → Bool
  | .nop => true
  | .clr => true
  | .sym ch => ch.toNat < 256
  | .ldt q imm => q.toNat < 4 && imm.toNat < 65536
  | .gen _ => true

/-- The readable registers by name (10_state.md rule R30). -/
inductive RegName where
  | status | keylen | timeLo | timeHi | ctrLo | ctrHi
  | digest0 | digest1 | digest2 | digest3 | digest4
  | trunc | offset | code | codeStr0 | codeStr1 | errdata | id | param
deriving DecidableEq, Repr

/-- One line of a program listing: the commands with their operands as written (R78), the pseudo-instructions (R79), and
the host's actions and raw words (R80). A character or a string is given by its bytes, as plain numbers. -/
inductive Asm where
  | nop
  | clr
  | sym (imm8 : Nat)
  | ldt (q imm16 : Nat)
  | gen (next : Bool)
  | secret (s : List Nat)
  | ldt64 (t : Nat)
  | totp (s : List Nat) (t : Nat) (next : Bool)
  | wait
  | rd (name : RegName)
  | word (v : Nat)
deriving DecidableEq, Repr

/-- The operand ranges of R78, R79 and R80. -/
def Asm.wellFormed : Asm → Bool
  | .nop => true
  | .clr => true
  | .sym imm8 => imm8 < 2 ^ 8
  | .ldt q imm16 => q < 4 && imm16 < 2 ^ 16
  | .gen _ => true
  | .secret s => s.all (· < 2 ^ 8)
  | .ldt64 t => t < 2 ^ 64
  | .totp s t _ => s.all (· < 2 ^ 8) && t < 2 ^ 64
  | .wait => true
  | .rd _ => true
  | .word v => v < 2 ^ 32

end Sys2Proof
end

