-- ==== Sys2Proof/Decode.lean ====
section
/-! DEFINITION. The decoder and the encoder of command words (30_encoding.md rules R70 to R77). A command is one 32-bit word
of the command port, so decoding takes a word and needs no length logic and no byte order (R70). A word that matches no row
of the opcode map is refused here; what accepting it does (IllegalCommand, R76) is the machine's. -/

namespace Sys2Proof

/-- The name of a row of the opcode map (R75). -/
inductive Opcode where
  | nop | clr | sym | ldt | gen
deriving DecidableEq, Repr

/-- The bits a row fixes: a word is the row's command exactly when `(w & mask) = pattern` (R75). -/
def Opcode.mask : Opcode → Word
  | .nop => 0xFFFFFFFF#32
  | .clr => 0xFFFFFFFF#32
  | .sym => 0xFFFFFF00#32
  | .ldt => 0xFFFC0000#32
  | .gen => 0xFFFFFFFE#32

/-- The value of a row's fixed bits: the column `match` of R75. -/
def Opcode.pattern : Opcode → Word
  | .nop => 0x00000000#32
  | .clr => 0x01000000#32
  | .sym => 0x02000000#32
  | .ldt => 0x03000000#32
  | .gen => 0x04000000#32

/-- The rows of the opcode map (R75). -/
def opcodeMap : List Opcode := [.nop, .clr, .sym, .ldt, .gen]

/-- A word is a row's command (R75). -/
def Opcode.matchesWord (o : Opcode) (w : Word) : Bool := w &&& o.mask == o.pattern

/-- The operand fields of R71 at their places: `CH = w[7:0]`, `Q = w[17:16]`, `IMM16 = w[15:0]`, `N = w[0]`. -/
def Opcode.instrOf : Opcode → Word → Instr
  | .nop, _ => .nop
  | .clr, _ => .clr
  | .sym, w => .sym (w.extractLsb' 0 8)
  | .ldt, w => .ldt (w.extractLsb' 16 2) (w.extractLsb' 0 16)
  | .gen, w => .gen (w.getLsbD 0)

/-- The command of a word, or `none` where the word matches no row (R75, R76, R77). -/
def decode (w : Word) : Option Instr :=
  (opcodeMap.find? fun o => o.matchesWord w).map fun o => o.instrOf w

/-- The word of a command (R71, R78): the opcode in bits 31:24, the operands at their places, reserved bits 0. -/
def encode : Instr → Word
  | .nop => 0x00000000#32
  | .clr => 0x01000000#32
  | .sym ch => 0x02000000#32 ||| ch.setWidth 32
  | .ldt q imm => 0x03000000#32 ||| (q.setWidth 32 <<< 16) ||| imm.setWidth 32
  | .gen next => 0x04000000#32 ||| (BitVec.ofBool next).setWidth 32

/-- The command the decoder reads from an instruction of `nbits` bits whose bits are `w`. Every command is one 32-bit word
(R70): a number that does not fit in one word is no command. -/
def decodeTableWord (nbits w : Nat) : Option Instr :=
  if w % 2 ^ nbits < 2 ^ 32 then decode (BitVec.ofNat 32 (w % 2 ^ nbits)) else none

end Sys2Proof
end

