-- ==== Sys2Proof/Machine/State.lean ====
section
/-! DEFINITION. The state of OTP-CORE (10_state.md rule R22), the two agents' shared plain data (00_scope.md rule R12), the
reasons a step can stop, and the state after reset (70_reset_and_hazards.md rules R250 and R251). -/

namespace Sys2Proof.Machine

/-- The key buffer's contents (20_memory.md rule R52): index and byte, indices strictly rising, no entry 0x00. A byte that is
not listed reads 0x00, the reset value of KEY (R22; log entry 4). -/
abbrev Memory := List Host.Cell

/-- One action of the host agent (00_scope.md rule R12, 30_encoding.md rule R80). -/
inductive HostAction where
  /-- Present a command word and hold it until the port takes it (R261); a listing's command or `.word` (R80). -/
  | word (w : Word)
  /-- Read register index `i` through the register read port (R30); a listing's `RD` (R80). -/
  | rd (i : BitVec 6)
  /-- Go on only once BUSY = 0; a listing's `WAIT` (R59, R80). That it is one action, whose reads of STATUS are
  not recorded, is a DESIGN CHOICE (log entry 21). -/
  | wait
  /-- Assert `rst` for one rising clock edge (R250). -/
  | rst
deriving DecidableEq, Repr

/-- The whole state: the elements of R22 under their own names, then the host agent's side. -/
structure State where
  /-- A GEN has been accepted and not yet completed. -/
  busy : Bool
  /-- The result registers hold the outcome of the most recent GEN. -/
  valid : Bool
  /-- An error has been recorded in this session. -/
  err : Bool
  /-- The code of the first error of the session (R221). -/
  ecode : BitVec 4
  /-- The command word that raised the first error. -/
  errdata : Word
  /-- An alphabet symbol has been accepted in this session. -/
  started : Bool
  /-- Whitespace has been seen after the first symbol. -/
  pendws : Bool
  /-- The number of valid bits in the decoder's bit buffer. -/
  nbits : BitVec 3
  /-- The decoder's bit buffer; only bits `[nbits-1:0]` are significant. -/
  buf : BitVec 12
  /-- The number of key bytes emitted. -/
  keylen : BitVec 16
  /-- The key buffer. -/
  key : Memory
  /-- Unix time in whole seconds, unsigned. -/
  time : BitVec 64
  /-- Bit `q` set means quarter `q` of TIME has been loaded in this session. -/
  tmask : BitVec 4
  /-- The counter used by the most recent completed GEN. -/
  counter : BitVec 64
  /-- The HMAC-SHA1 output of the most recent completed GEN. -/
  digest : Vector Byte 20
  /-- binaryCode of the most recent completed GEN: 31 bits, held in 32. -/
  trunc : Word
  /-- The truncation offset of the most recent completed GEN. -/
  offset : BitVec 4
  /-- binaryCode mod 10^6. -/
  code : BitVec 20
  /-- The ASCII digits of CODE, most significant first. -/
  codestr : Vector Byte 6
  /-- The N flag of the GEN in flight. -/
  pendN : Bool
  /-- THE MODEL'S OWN (log entry 1): what the host agent will do, in order. It decides which agent moves next. -/
  host : List HostAction
  /-- THE MODEL'S OWN (log entry 2): the reads the host has made, oldest first: the index and the value the port returned. -/
  reads : List (BitVec 6 × Word)
deriving DecidableEq, Repr

/-- Why the machine stops with a fault. -/
inductive Fault where
  /-- Raised by a SYM that would write, and by a GEN completion that would read, a key byte at an index of `KEY_CAP` or more,
  which does not exist (R52). Only states with `KEYLEN > KEY_CAP`, which no run reaches (R23), raise it. Safe (log entry 7). -/
  | keyIndexOutOfRange
deriving DecidableEq, Repr

/-- Why the machine refuses a command. -/
inductive Refusal where
  /-- Raised by `exec` for a command without a meaning. Every command has one, so nothing raises it. Safe. -/
  | notModelled (mnemonic : String)
deriving DecidableEq, Repr

/-- The machine right after reset: every element of R22 at its reset value (R250, R251), the host with nothing to do yet. -/
def State.reset : State where
  busy := false
  valid := false
  err := false
  ecode := 0#4
  errdata := 0#32
  started := false
  pendws := false
  nbits := 0#3
  buf := 0#12
  keylen := 0#16
  key := []
  time := 0#64
  tmask := 0#4
  counter := 0#64
  digest := #v[0, 0, 0, 0, 0, 0, 0, 0, 0, 0, 0, 0, 0, 0, 0, 0, 0, 0, 0, 0]
  trunc := 0#32
  offset := 0#4
  code := 0#20
  codestr := #v[0, 0, 0, 0, 0, 0]
  pendN := false
  host := []
  reads := []

end Sys2Proof.Machine
end

