-- ==== Sys2Proof/Machine/Ops.lean ====
section
/-! DEFINITION. The shared operations: byte order (00_scope.md rule R9), the key buffer's bytes (20_memory.md rule R52), the
error procedure (60_exceptions.md rule R222), the dispatch on ERR (R223), and the return to reset values (R101, R250). -/

namespace Sys2Proof.Machine

/-! ## Bytes and words -/

/-- The four bytes of a word, most significant first: `be32` (R9). -/
def be32 (w : Word) : List Byte :=
  [w.extractLsb' 24 8, w.extractLsb' 16 8, w.extractLsb' 8 8, w.extractLsb' 0 8]

/-- The eight bytes of a 64-bit value, most significant first: `be64` (R9, R53). -/
def be64 (x : BitVec 64) : List Byte := be32 (x.extractLsb' 32 32) ++ be32 (x.extractLsb' 0 32)

/-- The word of four bytes, the first in the most significant bits (R54, R162). -/
def ofBe32 (b0 b1 b2 b3 : Byte) : Word := b0 ++ b1 ++ b2 ++ b3

/-! ## The key buffer -/

/-- What a byte of the key buffer that is not listed reads as: its reset value (R22; log entry 4). -/
def Memory.unlisted : Byte := 0x00#8

/-- `KEY[i]` (R10, R52). -/
def Memory.read : Memory → Nat → Byte
  | [], _ => Memory.unlisted
  | (a, x) :: m, i => if a = i then x else Memory.read m i

/-- `KEY[i] <- v` (R10, R52), keeping the canonical form: writing the value of an unlisted byte removes the entry. -/
def Memory.write : Memory → Nat → Byte → Memory
  | [], i, v => if v = Memory.unlisted then [] else [(i, v)]
  | (a, x) :: m, i, v =>
    if i < a then (if v = Memory.unlisted then (a, x) :: m else (i, v) :: (a, x) :: m)
    else if i = a then (if v = Memory.unlisted then m else (i, v) :: m)
    else (a, x) :: Memory.write m i v

/-- The canonical form: indices strictly rising, and no entry equal to what an unlisted byte reads as. -/
abbrev Memory.wf (m : Memory) : Prop :=
  m.Pairwise (fun c d => c.1 < d.1) ∧ ∀ c ∈ m, c.2 ≠ Memory.unlisted

/-- The byte string `KEY[0..KEYLEN-1]`, the decoded key (R33, R52). -/
def State.keyBytes (s : State) : List Byte := (List.range s.keylen.toNat).map (Memory.read s.key)

/-! ## Errors -/

/-- The errors that a command can raise (R221). -/
inductive ErrorKind where
  | invalidSecretEncoding
  | clockUnavailable
  | keyOverflow
  | illegalCommand
deriving DecidableEq, Repr

/-- The code recorded in ECODE (R221; 5 to 15 are never produced). -/
def ErrorKind.code : ErrorKind → BitVec 4
  | .invalidSecretEncoding => 1#4
  | .clockUnavailable => 2#4
  | .keyOverflow => 3#4
  | .illegalCommand => 4#4

/-- ERR, ECODE and ERRDATA of a first error (R222). -/
def State.recordError (e : ErrorKind) (w : Word) (s : State) : State :=
  { s with err := true, ecode := e.code, errdata := w }

/-- `raise E(w)`: the first error of a session is recorded, a later one is not, and nothing else is written (R11, R222). -/
def raise (e : ErrorKind) (w : Word) (s : State) : Host.Outcome State Fault Refusal :=
  .next (if s.err then s else s.recordError e w)

/-- A command other than NOP and CLR is dropped while ERR = 1: it is accepted and changes nothing (R223). -/
def unlessError (s : State) (run : Host.Outcome State Fault Refusal) : Host.Outcome State Fault Refusal :=
  if s.err then .next s else run

/-! ## Reset values -/

/-- Every element of R22 at its reset value (R101, R250), the host agent's side as it is. -/
def State.clear (s : State) : State :=
  { State.reset with host := s.host, reads := s.reads }

end Sys2Proof.Machine
end

