-- ==== Sys2Proof/Machine/Operands.lean ====
section
/-! DEFINITION. The operand forms (30_encoding.md section 2): the character byte of SYM and its class (R72, R110, R111), the
quarter and immediate of LDT (R73), and the next-window flag of GEN (R74). A command has no other operand. -/

namespace Sys2Proof.Machine

/-- The class of a character byte (R111). -/
inductive CharClass where
  /-- A character of the alphabet after upper-casing, with its 5-bit value (R110). -/
  | symbol (v : BitVec 5)
  /-- Whitespace, significant only at the edges. -/
  | ws
  /-- Outside the alphabet after normalisation. -/
  | invalid
deriving DecidableEq, Repr

/-- The bytes trimmed as whitespace: the parameter `WS` (00_scope.md rule R7, decision D7). -/
def isWhitespace (ch : Byte) : Bool :=
  ch == 0x09#8 || ch == 0x0A#8 || ch == 0x0B#8 || ch == 0x0C#8 || ch == 0x0D#8 || ch == 0x20#8

/-- `class(CH)`, the table of R111. -/
def charClass (ch : Byte) : CharClass :=
  if 0x41#8 ≤ ch ∧ ch ≤ 0x5A#8 then .symbol ((ch - 0x41#8).setWidth 5)
  else if 0x61#8 ≤ ch ∧ ch ≤ 0x7A#8 then .symbol ((ch - 0x61#8).setWidth 5)
  else if 0x32#8 ≤ ch ∧ ch ≤ 0x37#8 then .symbol ((ch - 0x32#8 + 26#8).setWidth 5)
  else if isWhitespace ch then .ws
  else .invalid

/-- TIME with quarter `q` replaced by the immediate, neither scaled nor sign-extended (R73, R141). -/
def insertQuarter (time : BitVec 64) (q : BitVec 2) (imm : BitVec 16) : BitVec 64 :=
  (time &&& ~~~((0xFFFF#16).setWidth 64 <<< (16 * q.toNat))) ||| (imm.setWidth 64 <<< (16 * q.toNat))

/-- The next-window flag as the number 0 or 1 (R74). -/
def windowStep (next : Bool) : Nat := if next then 1 else 0

end Sys2Proof.Machine
end

