-- ==== Sys2Proof/Machine/Flags.lean ====
section
/-! DEFINITION. The flags (10_state.md rules R26 and R27): how each command writes its flags, and the STATUS word. -/

namespace Sys2Proof.Machine

/-- PENDWS after a whitespace: set once a symbol has been accepted (R113). -/
def pendwsAfterWhitespace (s : State) : Bool := s.pendws || s.started

/-- TMASK after LDT: bit `q` set, the others kept (R141). -/
def tmaskAfterLoad (tmask : BitVec 4) (q : BitVec 2) : BitVec 4 := tmask ||| (1#4 <<< q.toNat)

/-- TIME is available: all four quarters have been loaded since the last CLR or reset (R142). -/
def timeAvailable (s : State) : Bool := s.tmask == 0b1111#4

/-- The STATUS word (R26): [31:19] 0, [18:16] NBITS, [15:12] TMASK, [11:10] 0, [9] PENDWS, [8] STARTED, [7:4] ECODE, [3] 0,
[2] ERR, [1] VALID, [0] BUSY. -/
def statusWord (s : State) : Word :=
  0#13 ++ s.nbits ++ s.tmask ++ 0#2 ++ BitVec.ofBool s.pendws ++ BitVec.ofBool s.started ++ s.ecode ++ 0#1 ++
    BitVec.ofBool s.err ++ BitVec.ofBool s.valid ++ BitVec.ofBool s.busy

end Sys2Proof.Machine
end

