-- ==== Sys2Proof/Machine/Base32.lean ====
section
/-! DEFINITION. The Base32 decoder (41_base32_decoder.md): the SYM command, which takes the secret one character at a time
(R113 to R116), and beside it the source's whole-string functions Normalize (R112) and Decode (R123), which no command
calls: statements compare the two. -/

namespace Sys2Proof.Machine

/-! ## SYM -/

/-- The bit buffer with a symbol shifted in: `b = (BUF << 5) | v`, 12 bits (R113, R114). -/
def pushBits (buf : BitVec 12) (v : BitVec 5) : BitVec 12 := (buf <<< 5) ||| v.setWidth 12

/-- The low `n` bits of the buffer: `b & mask(n)` (00_scope.md rule R8). -/
def keepBits (b : BitVec 12) (n : Nat) : BitVec 12 := b &&& (BitVec.allOnes 12 >>> (12 - n))

/-- A symbol that leaves fewer than 8 bits in the buffer: it is held (R113). -/
def State.holdSymbol (v : BitVec 5) (s : State) : State :=
  { s with
    started := true
    nbits := BitVec.ofNat 3 (s.nbits.toNat + 5)
    buf := pushBits s.buf v }

/-- A symbol that makes 8 bits or more: with `n` counted bits in `b`, the byte `b[n-1:n-8]` is emitted at `KEY[KEYLEN]`,
KEYLEN steps, and the `n - 8` bits below stay in the buffer (R113, R115). -/
def State.emitSymbol (v : BitVec 5) (s : State) : State :=
  let n := s.nbits.toNat + 5
  let b := pushBits s.buf v
  { s with
    started := true
    key := Memory.write s.key s.keylen.toNat (b.extractLsb' (n - 8) 8)
    keylen := s.keylen + 1#16
    nbits := BitVec.ofNat 3 (n - 8)
    buf := keepBits b (n - 8) }

/-- Whether the next symbol completes a byte: `NBITS + 5 >= 8` (R113). -/
def State.symbolEmits (s : State) : Bool := 8 ≤ s.nbits.toNat + 5

/-- A symbol that no check of R113 has turned away. A key byte at an index of `KEY_CAP` or more does not exist (R52); no run
comes to it (log entry 7). -/
def acceptSymbol (v : BitVec 5) (s : State) : Host.Outcome State Fault Refusal :=
  if s.symbolEmits then
    if s.keylen.toNat < Config.keyCap then .next (s.emitSymbol v) else .fault .keyIndexOutOfRange
  else .next (s.holdSymbol v)

/-- Whitespace: leading whitespace changes nothing, a later one sets PENDWS (R113). -/
def State.noteWhitespace (s : State) : State := { s with pendws := pendwsAfterWhitespace s }

/-- SYM CH (R113), its checks in the order of 60_exceptions.md rule R226. ERRDATA takes the SYM word (R221). -/
def execSym (ch : Byte) (s : State) : Host.Outcome State Fault Refusal :=
  unlessError s <|
    match charClass ch with
    | .ws => .next s.noteWhitespace
    | .invalid => raise .invalidSecretEncoding (encode (.sym ch)) s
    | .symbol v =>
      if s.pendws then raise .invalidSecretEncoding (encode (.sym ch)) s
      else if s.symbolEmits ∧ s.keylen.toNat = Config.keyCap then raise .keyOverflow (encode (.sym ch)) s
      else acceptSymbol v s

/-! ## The source's functions on a whole secret -/

/-- The alphabet `ABCDEFGHIJKLMNOPQRSTUVWXYZ234567`, in index order (R6, R110). -/
def alphabet : List Byte :=
  [0x41#8, 0x42#8, 0x43#8, 0x44#8, 0x45#8, 0x46#8, 0x47#8, 0x48#8, 0x49#8, 0x4A#8, 0x4B#8, 0x4C#8, 0x4D#8, 0x4E#8, 0x4F#8, 0x50#8,
   0x51#8, 0x52#8, 0x53#8, 0x54#8, 0x55#8, 0x56#8, 0x57#8, 0x58#8, 0x59#8, 0x5A#8, 0x32#8, 0x33#8, 0x34#8, 0x35#8, 0x36#8, 0x37#8]

/-- `Trim`: without the longest prefix and the longest suffix of whitespace (R112). -/
def trimSecret (s : List Byte) : List Byte :=
  ((s.dropWhile isWhitespace).reverse.dropWhile isWhitespace).reverse

/-- `Upper` on one byte: 0x61..0x7A lose 0x20, every other byte stays (R112). -/
def upperByte (c : Byte) : Byte := if 0x61#8 ≤ c ∧ c ≤ 0x7A#8 then c - 0x20#8 else c

/-- `Normalize(s) = Upper(Trim(s))` (R112). -/
def normalizeSecret (s : List Byte) : List Byte := (trimSecret s).map upperByte

/-- A secret is valid when every byte of its normalised form is one of the 32 alphabet bytes (R112). -/
def validSecret (s : List Byte) : Bool := (normalizeSecret s).all fun c => alphabet.contains c

/-- The value of an alphabet byte: its index (R110). -/
def alphabetValue (c : Byte) : Nat := alphabet.idxOf c

/-- Bit `k` of the decoded key, bit 0 being bit 7 of byte 0: bit `4 - (k mod 5)` of the value of `t[floor(k/5)]` (R123). -/
def decodedBit (t : List Byte) (k : Nat) : Bool := (alphabetValue (t.getD (k / 5) 0)).testBit (4 - k % 5)

/-- Byte `i` of the decoded key: bits `8i` to `8i + 7`, the first the most significant (R123). -/
def decodedByte (t : List Byte) (i : Nat) : Byte :=
  BitVec.ofNat 8 ((List.range 8).foldl (fun acc j => 2 * acc + (decodedBit t (8 * i + j)).toNat) 0)

/-- `Decode(t)`: `floor(5L/8)` bytes, the leftover bits discarded (R118, R123). -/
def decodeSecret (t : List Byte) : List Byte := (List.range (5 * t.length / 8)).map (decodedByte t)

end Sys2Proof.Machine
end

