-- ==== Sys2Proof/Machine/HmacSha1.lean ====
section
/-! DEFINITION. The HMAC-SHA1 core (43_hmac_sha1.md): SHA-1 padding, message schedule, rounds, output (R161 to R166) and
HMAC (R175 to R177). The source names the algorithm only; the spec supplies these rules as general knowledge
(93_implementation_defined.md G1 to G9), and the model follows the rules as the spec writes them (log entry 11).
The core is a pure function: it has no State field (R179), and how a circuit schedules the rounds is not architectural
(R178). -/

namespace Sys2Proof.Machine

/-! ## SHA-1 -/

/-- The number `k` of zero bytes of the padding: the least `k` with `(len + 1 + k) mod 64 = 56` (R161). -/
def sha1PadZeros (len : Nat) : Nat := (119 - len % 64) % 64

/-- The padded message: the message, 0x80, `k` zero bytes, and the bit length as eight big-endian bytes (R161). -/
def sha1Pad (x : List Byte) : List Byte :=
  x ++ 0x80#8 :: List.replicate (sha1PadZeros x.length) 0x00#8 ++ be64 (BitVec.ofNat 64 (8 * x.length))

/-- The first `n` blocks of 64 bytes of a byte string (R161). -/
def sha1Blocks : Nat → List Byte → List (List Byte)
  | 0, _ => []
  | n + 1, p => p.take 64 :: sha1Blocks n (p.drop 64)

/-- Words 0 to 15 of the schedule: the block's words, big-endian (R162). -/
def sha1BlockWords (block : List Byte) : List Word :=
  (List.range 16).map fun t => ofBe32 (block.getD (4 * t) 0) (block.getD (4 * t + 1) 0) (block.getD (4 * t + 2) 0) (block.getD (4 * t + 3) 0)

/-- `n` more words of the schedule, on a schedule held newest word first: with `W[t-1]` at index 0, the next word is
`ROTL_1(W[t-3] ^ W[t-8] ^ W[t-14] ^ W[t-16])` (R162). -/
def sha1Extend : Nat → List Word → List Word
  | 0, ws => ws
  | n + 1, ws => sha1Extend n ((ws.getD 2 0 ^^^ ws.getD 7 0 ^^^ ws.getD 13 0 ^^^ ws.getD 15 0).rotateLeft 1 :: ws)

/-- The message schedule `W[0], …, W[79]` of a block (R162). -/
def sha1Schedule (block : List Byte) : List Word :=
  (sha1Extend 64 (sha1BlockWords block).reverse).reverse

/-- The round function `f_t(b, c, d)` (R163). -/
def sha1F (t : Nat) (b c d : Word) : Word :=
  if t < 20 then (b &&& c) ||| (~~~b &&& d)
  else if t < 40 then b ^^^ c ^^^ d
  else if t < 60 then (b &&& c) ||| (b &&& d) ||| (c &&& d)
  else b ^^^ c ^^^ d

/-- The round constant `K_t` (R163). -/
def sha1K (t : Nat) : Word :=
  if t < 20 then 0x5A827999#32
  else if t < 40 then 0x6ED9EBA1#32
  else if t < 60 then 0x8F1BBCDC#32
  else 0xCA62C1D6#32

/-- Five words: the chaining value `H0 … H4` (R164) and the working variables `a … e` (R165). -/
structure Sha1Words where
  a : Word
  b : Word
  c : Word
  d : Word
  e : Word
deriving DecidableEq, Repr

/-- The initial chaining value (R164). -/
def sha1Init : Sha1Words :=
  { a := 0x67452301#32, b := 0xEFCDAB89#32, c := 0x98BADCFE#32, d := 0x10325476#32, e := 0xC3D2E1F0#32 }

/-- One round of the compression loop, additions modulo 2^32 (R165). -/
def sha1Round (t : Nat) (w : Word) (v : Sha1Words) : Sha1Words :=
  { a := v.a.rotateLeft 5 + sha1F t v.b v.c v.d + v.e + sha1K t + w
    b := v.a
    c := v.b.rotateLeft 30
    d := v.c
    e := v.d }

/-- The rounds from round `t` on, one for each remaining word of the schedule (R165). -/
def sha1Rounds : Nat → List Word → Sha1Words → Sha1Words
  | _, [], v => v
  | t, w :: ws, v => sha1Rounds (t + 1) ws (sha1Round t w v)

/-- Compression of one block into the chaining value (R165). -/
def sha1Compress (h : Sha1Words) (block : List Byte) : Sha1Words :=
  let v := sha1Rounds 0 (sha1Schedule block) h
  { a := h.a + v.a, b := h.b + v.b, c := h.c + v.c, d := h.d + v.d, e := h.e + v.e }

/-- The 20-byte output: the five words, each big-endian (R166). -/
def sha1Output (h : Sha1Words) : List Byte :=
  be32 h.a ++ be32 h.b ++ be32 h.c ++ be32 h.d ++ be32 h.e

/-- SHA-1 of a byte string: its blocks compressed in order from the initial value (R165, R166). -/
def sha1 (x : List Byte) : List Byte :=
  let p := sha1Pad x
  sha1Output ((sha1Blocks (p.length / 64) p).foldl sha1Compress sha1Init)

/-! ## HMAC -/

/-- The key as one 64-byte block: hashed first when it is longer than 64 bytes, then zero-padded (R176). -/
def hmacKeyBlock (k : List Byte) : List Byte :=
  let k' := if k.length > 64 then sha1 k else k
  k' ++ List.replicate (64 - k'.length) 0x00#8

/-- Byte-wise exclusive or with 64 bytes of one value: `ipad` is 0x36 and `opad` is 0x5C (R175). -/
def xorPad (pad : Byte) (k0 : List Byte) : List Byte := k0.map (· ^^^ pad)

/-- `HMAC_SHA1(K, M) = SHA1((K0 ^ opad) || SHA1((K0 ^ ipad) || M))` (R177). -/
def hmacSha1 (k m : List Byte) : List Byte :=
  let k0 := hmacKeyBlock k
  sha1 (xorPad 0x5C#8 k0 ++ sha1 (xorPad 0x36#8 k0 ++ m))

end Sys2Proof.Machine
end

