-- ==== Sys2Proof/Machine/TimeCounter.lean ====
section
/-! DEFINITION. The time input and the time-counter scaler (42_time_counter.md). -/

namespace Sys2Proof.Machine

/-- LDT's effect: one quarter of TIME and its bit of TMASK (R141). -/
def State.loadQuarter (q : BitVec 2) (imm : BitVec 16) (s : State) : State :=
  { s with
    time := insertQuarter s.time q imm
    tmask := tmaskAfterLoad s.tmask q }

/-- LDT Q, IMM16 (R141). It raises no error of its own. -/
def execLdt (q : BitVec 2) (imm : BitVec 16) (s : State) : Host.Outcome State Fault Refusal :=
  unlessError s (.next (s.loadQuarter q imm))

/-- The scaler: `C = floor(TIME / 30) + N`, exact (R143); it never overflows 64 bits (R144). -/
def scaleTime (time : BitVec 64) (next : Bool) : BitVec 64 :=
  BitVec.ofNat 64 (time.toNat / Config.period + windowStep next)

end Sys2Proof.Machine
end

