-- ==== Sys2Proof/Machine/Truncation.lean ====
section
/-! DEFINITION. Dynamic truncation and digit extraction (44_generate.md rules R192 to R196). -/

namespace Sys2Proof.Machine

/-- Byte `k` of a digest. Every index the truncation uses is below 20 (R193). -/
def digestByte (d : Vector Byte 20) (k : Nat) : Byte := d.toList.getD k 0x00#8

/-- The offset: the low nibble of the last digest byte (R192). -/
def truncOffset (d : Vector Byte 20) : BitVec 4 := (digestByte d 19 &&& 0x0F#8).setWidth 4

/-- binaryCode: the four bytes from the offset on, most significant first, the top bit masked off (R192, R194). -/
def binaryCode (d : Vector Byte 20) : Word :=
  let off := (truncOffset d).toNat
  ((digestByte d off &&& 0x7F#8).setWidth 32 <<< 24) ||| ((digestByte d (off + 1)).setWidth 32 <<< 16) |||
    ((digestByte d (off + 2)).setWidth 32 <<< 8) ||| (digestByte d (off + 3)).setWidth 32

/-- `code = binaryCode mod 1_000_000` (R195). -/
def codeOf (bc : Word) : BitVec 20 := BitVec.ofNat 20 (bc.toNat % Config.modulus)

/-- Character `j` of the rendering: `0x30 + (floor(code / 10^(5-j)) mod 10)` (R196). -/
def digitChar (code : BitVec 20) (j : Nat) : Byte := BitVec.ofNat 8 (0x30 + code.toNat / 10 ^ (5 - j) % 10)

/-- The six ASCII digits, most significant first (R196). -/
def codeString (code : BitVec 20) : Vector Byte 6 :=
  #v[digitChar code 0, digitChar code 1, digitChar code 2, digitChar code 3, digitChar code 4, digitChar code 5]

/-- A 20-byte string as the DIGEST element. A SHA-1 output always has 20 bytes (43_hmac_sha1.md rule R166). -/
def digestOf (h : List Byte) : Vector Byte 20 :=
  #v[h.getD 0 0, h.getD 1 0, h.getD 2 0, h.getD 3 0, h.getD 4 0, h.getD 5 0, h.getD 6 0, h.getD 7 0, h.getD 8 0, h.getD 9 0,
     h.getD 10 0, h.getD 11 0, h.getD 12 0, h.getD 13 0, h.getD 14 0, h.getD 15 0, h.getD 16 0, h.getD 17 0, h.getD 18 0, h.getD 19 0]

end Sys2Proof.Machine
end

