-- ==== Sys2Proof/Machine/Generate.lean ====
section
/-! DEFINITION. GEN in its two steps (44_generate.md): the Accept step (R190), and the Complete step of the GEN sequencer
(R191). -/

namespace Sys2Proof.Machine

/-- A GEN that starts: VALID falls, the flag N is kept, BUSY rises (R190). -/
def State.startGen (next : Bool) (s : State) : State :=
  { s with valid := false, pendN := next, busy := true }

/-- GEN, the Accept step (R190). Without an available TIME it raises ClockUnavailable (R142) with the GEN word (R221). -/
def execGen (next : Bool) (s : State) : Host.Outcome State Fault Refusal :=
  unlessError s <|
    if timeAvailable s then .next (s.startGen next) else raise .clockUnavailable (encode (.gen next)) s

/-- `C`, the counter of the GEN in flight (R143, R191). -/
def State.genCounter (s : State) : BitVec 64 := scaleTime s.time s.pendN

/-- `H`, the digest of the GEN in flight: HMAC-SHA1 of `be64(C)` under `KEY[0..KEYLEN-1]` (R160, R191). -/
def State.genDigest (s : State) : Vector Byte 20 := digestOf (hmacSha1 s.keyBytes (be64 s.genCounter))

/-- Every result at once, from a counter and a digest (R191). -/
def State.writeResults (c : BitVec 64) (h : Vector Byte 20) (s : State) : State :=
  { s with
    counter := c
    digest := h
    offset := truncOffset h
    trunc := binaryCode h
    code := codeOf (binaryCode h)
    codestr := codeString (codeOf (binaryCode h))
    pendN := false
    valid := true
    busy := false }

/-- GEN, the Complete step (R191). Key bytes at `KEY_CAP` and above do not exist (R52); no run comes to them (log entry 7). -/
def completeGen (s : State) : Host.Outcome State Fault Refusal :=
  if s.keylen.toNat ≤ Config.keyCap then .next (s.writeResults s.genCounter s.genDigest)
  else .fault .keyIndexOutOfRange

end Sys2Proof.Machine
end

