-- ==== Sys2Proof/Machine/Session.lean ====
section
/-! DEFINITION. The session commands NOP and CLR (40_session.md). Both act even while ERR = 1 (60_exceptions.md rule R223). -/

namespace Sys2Proof.Machine

/-- NOP: no state is read or written (R100). -/
def execNop (s : State) : Host.Outcome State Fault Refusal := .next s

/-- CLR: every element of R22 takes its reset value, so the key, TIME, the results and any error are wiped (R101). -/
def execClr (s : State) : Host.Outcome State Fault Refusal := .next s.clear

end Sys2Proof.Machine
end

