-- ==== Sys2Proof/Machine/Dispatch.lean ====
section
/-! DEFINITION. The Accept step of each command (60_exceptions.md rule R223, whose drop on ERR = 1 stands in the meanings). -/

namespace Sys2Proof.Machine

def exec (i : Instr) (s : State) : Host.Outcome State Fault Refusal :=
  match i with
  | .nop => Sys2Proof.Machine.execNop s
  | .clr => Sys2Proof.Machine.execClr s
  | .sym ch => Sys2Proof.Machine.execSym ch s
  | .ldt q imm => Sys2Proof.Machine.execLdt q imm s
  | .gen next => Sys2Proof.Machine.execGen next s

end Sys2Proof.Machine
end

