-- ==== Sys2Proof/Machine/Registers.lean ====
section
/-! DEFINITION. The register read port (10_state.md rules R30 and R31): 64 read-only word slots, computed from the state. -/

namespace Sys2Proof.Machine

/-- Word `k` of the digest, DIGESTk: four digest bytes, the first in the most significant bits (R30, R54). -/
def digestWord (d : Vector Byte 20) (k : Fin 5) : Word :=
  ofBe32 d[4 * k.val] d[4 * k.val + 1] d[4 * k.val + 2] d[4 * k.val + 3]

/-- The ID register's constant, ASCII "OTP1" (R30, decision D27). -/
def idWord : Word := 0x4F545031#32

/-- The PARAM register's constant: KEY_CAP, the period and the number of digits at their places (R30, R251). -/
def paramWord : Word :=
  0#4 ++ BitVec.ofNat 4 Config.digits ++ BitVec.ofNat 8 Config.period ++ BitVec.ofNat 16 Config.keyCap

/-- `RegRead(i)`: the register map of R30. Reserved indices read 0 (R31). -/
def regRead (s : State) (i : BitVec 6) : Word :=
  match i.toNat with
  | 0 => statusWord s
  | 1 => s.keylen.setWidth 32
  | 2 => s.time.extractLsb' 0 32
  | 3 => s.time.extractLsb' 32 32
  | 4 => s.counter.extractLsb' 0 32
  | 5 => s.counter.extractLsb' 32 32
  | 6 => digestWord s.digest 0
  | 7 => digestWord s.digest 1
  | 8 => digestWord s.digest 2
  | 9 => digestWord s.digest 3
  | 10 => digestWord s.digest 4
  | 11 => 0#1 ++ s.trunc.extractLsb' 0 31
  | 12 => s.offset.setWidth 32
  | 13 => s.code.setWidth 32
  | 14 => ofBe32 s.codestr[0] s.codestr[1] s.codestr[2] s.codestr[3]
  | 15 => s.codestr[4] ++ s.codestr[5] ++ 0#16
  | 16 => s.errdata
  | 17 => idWord
  | 18 => paramWord
  | _ => 0#32

/-- The word index of a register's name (R30). -/
def regIndex : RegName → BitVec 6
  | .status => 0#6
  | .keylen => 1#6
  | .timeLo => 2#6
  | .timeHi => 3#6
  | .ctrLo => 4#6
  | .ctrHi => 5#6
  | .digest0 => 6#6
  | .digest1 => 7#6
  | .digest2 => 8#6
  | .digest3 => 9#6
  | .digest4 => 10#6
  | .trunc => 11#6
  | .offset => 12#6
  | .code => 13#6
  | .codeStr0 => 14#6
  | .codeStr1 => 15#6
  | .errdata => 16#6
  | .id => 17#6
  | .param => 18#6

end Sys2Proof.Machine
end

