-- ==== Sys2Proof/Machine/Port.lean ====
section
/-! DEFINITION. The steps of the two agents (00_scope.md rule R12): the command port's handshake and Accept (20_memory.md
rule R56, 70_reset_and_hazards.md rule R261), Read, Reset, and the choice between the host and the GEN sequencer (log
entries 1 and 3). -/

namespace Sys2Proof.Machine

/-- The `rst` input: the host asserts it at the next edge (R250; log entry 9). -/
def State.rstAsserted (s : State) : Bool := s.host.head? == some .rst

/-- The `cmd_ready` output: 1 exactly when `BUSY = 0` and `rst = 0` (R56). -/
def State.cmdReady (s : State) : Bool := !s.busy && !s.rstAsserted

/-- The host goes on to its next action. -/
def State.advance (s : State) : State := { s with host := s.host.tail }

/-- `Accept(w)`: an illegal word raises IllegalCommand(w), also while ERR = 1, and a legal one runs (R76, R223). -/
def acceptWord (w : Word) (s : State) : Host.Outcome State Fault Refusal :=
  match decode w with
  | some i => exec i s
  | none => raise .illegalCommand w s

/-- `Read(i)`: the port answers from the current state, which it does not change (R30, R58); the host keeps the answer. -/
def State.readPort (i : BitVec 6) (s : State) : State := { s with reads := s.reads ++ [(i, regRead s i)] }

/-- One step. While BUSY = 1 the port is not ready: a word at the port waits (R261), and so does a host that waits for
BUSY = 0; the sequencer then moves. A host with nothing left to do leaves a GEN to complete, and an idle machine as it is
(R236). Reads and `rst` need no ready port. -/
def agentStep (s : State) : Host.Outcome State Fault Refusal :=
  match s.host with
  | [] => if s.busy then completeGen s else .next s
  | .word w :: _ => if s.cmdReady then acceptWord w s.advance else completeGen s
  | .wait :: _ => if s.busy then completeGen s else .next s.advance
  | .rd i :: _ => .next (s.advance.readPort i)
  | .rst :: _ => .next s.advance.clear

/-- The host puts `w` in front of its actions, with the port ready: a word is taken only with BUSY = 0 (R56; log entry 10). -/
def State.presentWord (w : Word) (s : State) : State := { s with host := .word w :: s.host, busy := false }

end Sys2Proof.Machine
end

