-- ==== Sys2Proof/Machine/Step.lean ====
section
/-! DEFINITION. One step of the machine (00_scope.md rule R12). OTP-CORE has no program counter and fetches nothing
(10_state.md rule R21): the host's next action, held in State, takes the place of a fetch. -/

namespace Sys2Proof.Machine

/-- One step: Accept, Complete, Read or Reset (R12), or no change of an idle machine (R236). -/
def step (s : State) : Host.Outcome State Fault Refusal := agentStep s

/-- The state whose next step accepts the command of `nbits` bits whose bits are `w`: the host presents its word at a ready
port (R56; log entry 10). A command is one 32-bit word (R70). -/
def State.withFetchWord (s : State) (nbits w : Nat) : State := s.presentWord (BitVec.ofNat 32 (w % 2 ^ nbits))

end Sys2Proof.Machine
end

