-- ==== Sys2Proof/Machine/Assembly.lean ====
section
/-! DEFINITION. What a line of a program listing makes the host do (30_encoding.md rules R78 to R80): the word of each command,
the expansions of SECRET, LDT64 and TOTP, and the host's own actions. -/

namespace Sys2Proof.Machine

/-- The host action that sends a command. -/
def issue (i : Instr) : HostAction := .word (encode i)

/-- `SECRET "s"`: one SYM for each byte of `s`, in order, with nothing added (R79). -/
def secretActions (s : List Nat) : List HostAction := s.map fun c => issue (.sym (BitVec.ofNat 8 c))

/-- `LDT64 t`: the four quarters of `t`, quarter 0 first (R79). -/
def ldt64Actions (t : Nat) : List HostAction :=
  [issue (.ldt 0#2 (BitVec.ofNat 16 t)), issue (.ldt 1#2 (BitVec.ofNat 16 (t / 2 ^ 16))),
   issue (.ldt 2#2 (BitVec.ofNat 16 (t / 2 ^ 32))), issue (.ldt 3#2 (BitVec.ofNat 16 (t / 2 ^ 48)))]

/-- `TOTP "s", t` and `TOTP "s", t, next`: CLR, the secret, the time, GEN (R79). -/
def totpActions (s : List Nat) (t : Nat) (next : Bool) : List HostAction :=
  issue .clr :: secretActions s ++ ldt64Actions t ++ [issue (.gen next)]

/-- The actions of a line whose operands are in range. -/
def Asm.actions : Asm → List HostAction
  | .nop => [issue .nop]
  | .clr => [issue .clr]
  | .sym imm8 => [issue (.sym (BitVec.ofNat 8 imm8))]
  | .ldt q imm16 => [issue (.ldt (BitVec.ofNat 2 q) (BitVec.ofNat 16 imm16))]
  | .gen next => [issue (.gen next)]
  | .secret s => secretActions s
  | .ldt64 t => ldt64Actions t
  | .totp s t next => totpActions s t next
  | .wait => [.wait]
  | .rd name => [.rd (regIndex name)]
  | .word v => [.word (BitVec.ofNat 32 v)]

/-- The assembler on one line: nothing is emitted for an operand out of range (R78). -/
def assemble (a : Asm) : Option (List HostAction) := if a.wellFormed then some (Asm.actions a) else none

end Sys2Proof.Machine
end

