-- ==== Sys2Proof/Machine/AsmText.lean ====
section
/-! DEFINITION. The letters of the assembly syntax (30_encoding.md rules R78 to R80): one command a line, `;` starts a
comment, numbers are decimal or hexadecimal with 0x. What the rules leave open of the notation is in log entry 12. -/

namespace Sys2Proof.Machine

/-- The lexical elements of a line. -/
inductive AsmToken where
  /-- A mnemonic, a register's name or a number. -/
  | name (cs : List Char)
  /-- `'c'`, by its byte. -/
  | char (b : Nat)
  /-- `"s"`, by its bytes. -/
  | text (bs : List Nat)
  | comma
deriving DecidableEq, Repr

/-- Characters of mnemonics, register names and numbers. -/
def isNameChar (c : Char) : Bool := c.isAlphanum || c == '_' || c == '.'

/-- The value of a decimal or hexadecimal digit. -/
def digitValue (c : Char) : Option Nat :=
  if '0' ≤ c ∧ c ≤ '9' then some (c.toNat - '0'.toNat)
  else if 'a' ≤ c ∧ c ≤ 'f' then some (c.toNat - 'a'.toNat + 10)
  else if 'A' ≤ c ∧ c ≤ 'F' then some (c.toNat - 'A'.toNat + 10)
  else none

/-- The number of a digit string in a base, most significant digit first, continuing from `acc`. -/
def digitsValue (base : Nat) : Nat → List Char → Option Nat
  | acc, [] => some acc
  | acc, c :: cs =>
    match digitValue c with
    | some d => if d < base then digitsValue base (base * acc + d) cs else none
    | none => none

/-- A number: decimal, or hexadecimal with `0x` (R78). -/
def numberValue : List Char → Option Nat
  | [] => none
  | '0' :: 'x' :: c :: cs => digitsValue 16 0 (c :: cs)
  | c :: cs => digitsValue 10 0 (c :: cs)

/-- One byte inside quotes, and the letters after it: an ASCII character, or an escape as the listings of
95_test_vectors.md write them. DESIGN CHOICE (log entry 12): `\n`, `\r`, `\t` and `\xHH` are the escapes, and a backslash
that begins none of them, as in `SYM '\'`, is the character backslash itself, 0x5C. A character that is not ASCII is an
assembly error. -/
def quotedByte : List Char → Option (Nat × List Char)
  | [] => none
  | '\\' :: 'n' :: r => some (0x0A, r)
  | '\\' :: 'r' :: r => some (0x0D, r)
  | '\\' :: 't' :: r => some (0x09, r)
  | '\\' :: 'x' :: h :: l :: r =>
    match digitsValue 16 0 [h, l] with
    | some b => some (b, r)
    | none => some (0x5C, 'x' :: h :: l :: r)
  | c :: r => if c.toNat < 0x80 then some (c.toNat, r) else none

/-- The double quote, U+0022. -/
def doubleQuote : Char := Char.ofNat 0x22

/-- The single quote, U+0027. -/
def singleQuote : Char := Char.ofNat 0x27

/-- The bytes of a string up to its closing quote, and the letters after it; the first argument bounds the length. -/
def quotedText : Nat → List Char → Option (List Nat × List Char)
  | 0, _ => none
  | _ + 1, [] => none
  | n + 1, c :: r =>
    if c = doubleQuote then some ([], r)
    else
      match quotedByte (c :: r) with
      | some (b, r') => (quotedText n r').map fun p => (b :: p.1, p.2)
      | none => none

/-- The tokens of a line up to its comment; the first argument bounds their number. -/
def asmTokens : Nat → List Char → Option (List AsmToken)
  | _, [] => some []
  | 0, _ :: _ => none
  | n + 1, c :: r =>
    if c = ';' then some []
    else if c = ' ' ∨ c = '\t' ∨ c = '\r' then asmTokens n r
    else if c = ',' then (asmTokens n r).map (AsmToken.comma :: ·)
    else if c = doubleQuote then
      match quotedText (r.length + 1) r with
      | some (bs, r') => (asmTokens n r').map (AsmToken.text bs :: ·)
      | none => none
    else if c = singleQuote then
      match quotedByte r with
      | some (b, c' :: r') => if c' = singleQuote then (asmTokens n r').map (AsmToken.char b :: ·) else none
      | _ => none
    else if isNameChar c then
      (asmTokens n (r.dropWhile isNameChar)).map (AsmToken.name (c :: r.takeWhile isNameChar) :: ·)
    else none

/-- The registers' names as R30 writes them. -/
def regNames : List (List Char × RegName) :=
  [(['S', 'T', 'A', 'T', 'U', 'S'], .status), (['K', 'E', 'Y', 'L', 'E', 'N'], .keylen),
   (['T', 'I', 'M', 'E', '_', 'L', 'O'], .timeLo), (['T', 'I', 'M', 'E', '_', 'H', 'I'], .timeHi),
   (['C', 'T', 'R', '_', 'L', 'O'], .ctrLo), (['C', 'T', 'R', '_', 'H', 'I'], .ctrHi),
   (['D', 'I', 'G', 'E', 'S', 'T', '0'], .digest0), (['D', 'I', 'G', 'E', 'S', 'T', '1'], .digest1),
   (['D', 'I', 'G', 'E', 'S', 'T', '2'], .digest2), (['D', 'I', 'G', 'E', 'S', 'T', '3'], .digest3),
   (['D', 'I', 'G', 'E', 'S', 'T', '4'], .digest4), (['T', 'R', 'U', 'N', 'C'], .trunc),
   (['O', 'F', 'F', 'S', 'E', 'T'], .offset), (['C', 'O', 'D', 'E'], .code),
   (['C', 'O', 'D', 'E', '_', 'S', 'T', 'R', '0'], .codeStr0), (['C', 'O', 'D', 'E', '_', 'S', 'T', 'R', '1'], .codeStr1),
   (['E', 'R', 'R', 'D', 'A', 'T', 'A'], .errdata), (['I', 'D'], .id), (['P', 'A', 'R', 'A', 'M'], .param)]

/-- A register of a given name. -/
def regNamed (cs : List Char) : Option RegName := (regNames.find? fun p => p.1 == cs).map (·.2)

/-- The operands of a mnemonic (R78, R79, R80). -/
def asmOperands (m : List Char) (args : List AsmToken) : Option Asm :=
  match args with
  | [] =>
    if m = ['N', 'O', 'P'] then some .nop
    else if m = ['C', 'L', 'R'] then some .clr
    else if m = ['G', 'E', 'N'] then some (.gen false)
    else if m = ['W', 'A', 'I', 'T'] then some .wait
    else none
  | [.char b] => if m = ['S', 'Y', 'M'] then some (.sym b) else none
  | [.text bs] => if m = ['S', 'E', 'C', 'R', 'E', 'T'] then some (.secret bs) else none
  | [.name a] =>
    if m = ['S', 'Y', 'M'] then (numberValue a).map .sym
    else if m = ['G', 'E', 'N'] then (if a = ['n', 'e', 'x', 't'] then some (.gen true) else none)
    else if m = ['L', 'D', 'T', '6', '4'] then (numberValue a).map .ldt64
    else if m = ['R', 'D'] then (regNamed a).map .rd
    else if m = ['.', 'w', 'o', 'r', 'd'] then (numberValue a).map .word
    else none
  | [.name a, .comma, .name b] =>
    if m = ['L', 'D', 'T'] then
      match numberValue a, numberValue b with
      | some q, some imm => some (.ldt q imm)
      | _, _ => none
    else none
  | [.text bs, .comma, .name t] =>
    if m = ['T', 'O', 'T', 'P'] then (numberValue t).map fun t => .totp bs t false else none
  | [.text bs, .comma, .name t, .comma, .name n] =>
    if m = ['T', 'O', 'T', 'P'] ∧ n = ['n', 'e', 'x', 't'] then (numberValue t).map fun t => .totp bs t true else none
  | _ => none

/-- One line: `some none` is a line without a command, `none` an assembly error. -/
def parseLine (line : List Char) : Option (Option Asm) :=
  match asmTokens line.length line with
  | some [] => some none
  | some (.name m :: args) => (asmOperands m args).map some
  | _ => none

/-- What the host does for one line of a listing, or `none` at an assembly error (R78). -/
def assembleLine (line : List Char) : Option (List HostAction) :=
  match parseLine line with
  | some (some a) => assemble a
  | some none => some []
  | none => none

end Sys2Proof.Machine
end

