-- ==== Sys2Proof/Safety.lean ====
section
/-! DEFINITION. What counts as a safe run, and the words the statements use: the invariants of 10_state.md rule R23, which part
of the state two states share, what the next step is, and the results the source's function gives. -/

namespace Sys2Proof.Machine

/-! ## Invariants -/

/-- The invariants of every reachable state: R23, with what its clauses rest on (the key buffer's form, R24, R52), the
agreement of the results (R197, 95_test_vectors.md section 8), and what an accepted GEN has checked (R142, R190). The bounds
`NBITS <= 7` and `OFFSET <= 15` of R23 are the types of `nbits` and `offset`. -/
structure Inv (s : State) : Prop where
  /-- `BUF < 2^NBITS`. -/
  buf_lt : s.buf.toNat < 2 ^ s.nbits.toNat
  /-- `KEYLEN <= KEY_CAP`. -/
  keylen_le : s.keylen.toNat ≤ Config.keyCap
  /-- The key buffer is in canonical form. -/
  key_wf : Memory.wf s.key
  /-- Key bytes at KEYLEN and above are 0x00 (R24). -/
  key_below : ∀ c ∈ s.key, c.1 < s.keylen.toNat
  /-- `STARTED = 0` implies `KEYLEN = 0`, `NBITS = 0` and `PENDWS = 0`. -/
  unstarted : s.started = false → s.keylen = 0#16 ∧ s.nbits = 0#3 ∧ s.pendws = false
  /-- For some number `L` of accepted symbols, `8·KEYLEN + NBITS = 5L`; with `NBITS <= 7` this is `KEYLEN = floor(5L/8)`. -/
  symbols : ∃ l, 8 * s.keylen.toNat + s.nbits.toNat = 5 * l
  /-- `ERR = 0` if and only if `ECODE = 0`. -/
  err_iff : s.err = false ↔ s.ecode = 0#4
  /-- ECODE is 0 to 4 (R221). -/
  ecode_le : s.ecode.toNat ≤ 4
  /-- `ERR = 0` implies `ERRDATA = 0`. -/
  errdata_zero : s.err = false → s.errdata = 0#32
  /-- `TRUNC < 2^31`. -/
  trunc_lt : s.trunc.toNat < 2 ^ 31
  /-- `CODE < 1_000_000`. -/
  code_lt : s.code.toNat < Config.modulus
  /-- `BUSY = 1` implies `VALID = 0` and `ERR = 0`; and GEN has checked that TIME is available (R190). -/
  busy_quiet : s.busy = true → s.valid = false ∧ s.err = false ∧ s.tmask = 0b1111#4
  /-- PEND_N belongs to the GEN in flight (R190, R191). -/
  pend_busy : s.pendN = true → s.busy = true
  /-- `VALID = 1` implies that OFFSET, TRUNC, CODE and CODESTR come from DIGEST (R192 to R197). -/
  results_agree : s.valid = true → s.offset = truncOffset s.digest ∧ s.trunc = binaryCode s.digest ∧
    s.code = codeOf s.trunc ∧ s.codestr = codeString s.code

/-- `n` steps from `s` neither fault nor are refused. -/
def SafeFor (n : Nat) (s : State) : Prop := ∃ t, Host.Core.run Sys2Proof.core n s = .next t

/-! ## Parts of the state -/

/-- The decoder and the key buffer: the elements only SYM writes (R25). -/
def SameDecoder (s t : State) : Prop :=
  t.started = s.started ∧ t.pendws = s.pendws ∧ t.nbits = s.nbits ∧ t.buf = s.buf ∧ t.keylen = s.keylen ∧ t.key = s.key

/-- TIME and TMASK: the elements only LDT writes (R25). -/
def SameTime (s t : State) : Prop := t.time = s.time ∧ t.tmask = s.tmask

/-- The result registers: the elements only a GEN completion writes (R25). -/
def SameResults (s t : State) : Prop :=
  t.counter = s.counter ∧ t.digest = s.digest ∧ t.trunc = s.trunc ∧ t.offset = s.offset ∧ t.code = s.code ∧ t.codestr = s.codestr

/-- BUSY, VALID and PEND_N: the elements of GEN's two steps (R25). -/
def SameControl (s t : State) : Prop := t.busy = s.busy ∧ t.valid = s.valid ∧ t.pendN = s.pendN

/-- ERR, ECODE and ERRDATA: the elements only the error procedure writes (R25). -/
def SameError (s t : State) : Prop := t.err = s.err ∧ t.ecode = s.ecode ∧ t.errdata = s.errdata

/-- The host agent's side, which no command touches. -/
def SameHost (s t : State) : Prop := t.host = s.host ∧ t.reads = s.reads

/-- Every element of R22 has its reset value; the key buffer reads 0x00 everywhere (R22, R251). -/
def AtReset (t : State) : Prop :=
  t.busy = false ∧ t.valid = false ∧ t.err = false ∧ t.ecode = 0#4 ∧ t.errdata = 0#32 ∧ t.started = false ∧ t.pendws = false ∧
  t.nbits = 0#3 ∧ t.buf = 0#12 ∧ t.keylen = 0#16 ∧ (∀ a, Memory.read t.key a = 0x00#8) ∧ t.time = 0#64 ∧ t.tmask = 0#4 ∧
  t.counter = 0#64 ∧ (∀ c ∈ t.digest.toList, c = 0x00#8) ∧ t.trunc = 0#32 ∧ t.offset = 0#4 ∧ t.code = 0#20 ∧
  (∀ c ∈ t.codestr.toList, c = 0x00#8) ∧ t.pendN = false

/-- The two states differ at most in the hidden key material, KEY's bytes and BUF (R32). -/
def SameButKeyMaterial (s t : State) : Prop := t = { s with key := t.key, buf := t.buf }

/-! ## What the next step is -/

/-- The word the next step accepts, if the step is an Accept (R12, R56). -/
def State.acceptsNext (s : State) : Option Word :=
  match s.host with
  | .word w :: _ => if s.busy then none else some w
  | _ => none

/-- The next step is a Complete (R12): the host's next action is neither a read nor a reset, and BUSY = 1. -/
def State.completesNext (s : State) : Bool :=
  s.busy && match s.host with
    | .rd _ :: _ => false
    | .rst :: _ => false
    | _ => true

/-- The next step is a Reset (R12). -/
def State.resetsNext (s : State) : Bool := s.host.head? == some .rst

/-- SYM `ch` stores a byte: it is a symbol, no check of R113 turns it away, and it makes 8 bits or more. -/
def symStores (ch : Byte) (s : State) : Bool :=
  match charClass ch with
  | .symbol _ => !s.err && !s.pendws && decide (3 ≤ s.nbits.toNat) && decide (s.keylen.toNat < Config.keyCap)
  | _ => false

/-- The word is illegal by R76: an opcode of 5 or more, or a reserved bit of its format set. -/
def illegalWord (w : Word) : Prop :=
  5 ≤ w.toNat / 2 ^ 24 ∨ (w.toNat / 2 ^ 24 ≤ 1 ∧ w.toNat % 2 ^ 24 ≠ 0) ∨
  (w.toNat / 2 ^ 24 = 2 ∧ w.toNat / 2 ^ 8 % 2 ^ 16 ≠ 0) ∨ (w.toNat / 2 ^ 24 = 3 ∧ w.toNat / 2 ^ 18 % 2 ^ 6 ≠ 0) ∨
  (w.toNat / 2 ^ 24 = 4 ∧ w.toNat / 2 % 2 ^ 23 ≠ 0)

/-- The reads the host makes before anything else. -/
def leadingReads : List HostAction → Nat
  | .rd _ :: as => leadingReads as + 1
  | _ => 0

/-- The host's reads ahead of a GEN's completion fit into GEN_LAT_MAX cycles, one cycle a read (R12; log entry 5). -/
def WithinLatency (s : State) : Prop := leadingReads s.host < Config.genLatMax

/-! ## Sessions -/

/-- Commands accepted one after the other (R56). -/
def execAll : List Instr → State → Host.Outcome State Fault Refusal
  | [], s => .next s
  | i :: is, s =>
    match exec i s with
    | .next t => execAll is t
    | .fault r => .fault r
    | .refused r => .refused r

/-- A decoder that has taken no character since CLR or reset, and no error (R22). -/
def DecoderFresh (s : State) : Prop :=
  s.err = false ∧ s.started = false ∧ s.pendws = false ∧ s.nbits = 0#3 ∧ s.buf = 0#12 ∧ s.keylen = 0#16 ∧ s.key = []

/-- The secret is accepted whole: valid, and its key fits into the buffer (R112, R122, R123). -/
def secretFits (secret : List Byte) : Bool :=
  validSecret secret && decide (5 * (normalizeSecret secret).length / 8 ≤ Config.keyCap)

/-- The digest of a key and a counter (R160, R191). -/
def totpDigest (key : List Byte) (c : Nat) : Vector Byte 20 := digestOf (hmacSha1 key (be64 (BitVec.ofNat 64 c)))

/-- The source's `generateCode` on a decoded key and a counter (R191, R192, R195). -/
def totpCode (key : List Byte) (c : Nat) : BitVec 20 := codeOf (binaryCode (totpDigest key c))

end Sys2Proof.Machine
end

