-- ==== Sys2Proof/Certificates/Slice0/Obligations.lean ====
section
/-! DEFINITION. The statements for the provers, from the numbered rules of spec/. Each docstring names the rules a statement
formalises or rests on. Where a rule is arithmetic, register, memory and word contents are compared as numbers. -/

open Sys2Proof Sys2Proof.Machine

/-! ## Encoding -/

/-- 30_encoding.md sections 1 to 3: the word of every well-formed command decodes to that command, operands included. -/
def Obligations.DecodeOfEncode : Prop :=
  ∀ i : Instr, i.wellFormed = true → decode (encode i) = some i

/-- 30_encoding.md sections 1 to 3: a word that decodes is the word of its command, so each command has one word. -/
def Obligations.EncodeOfDecode : Prop :=
  ∀ (w : Word) (i : Instr), decode w = some i → encode i = w

/-- R75: the rows of the opcode map, each by its mask and match; no two rows match the same word. -/
def Obligations.OpcodeMapDecodes : Prop :=
  ∀ w : Word,
    (decode w = some .nop ↔ w &&& 0xFFFFFFFF#32 = 0x00000000#32) ∧
    (decode w = some .clr ↔ w &&& 0xFFFFFFFF#32 = 0x01000000#32) ∧
    ((∃ ch, decode w = some (.sym ch)) ↔ w &&& 0xFFFFFF00#32 = 0x02000000#32) ∧
    ((∃ q imm, decode w = some (.ldt q imm)) ↔ w &&& 0xFFFC0000#32 = 0x03000000#32) ∧
    ((∃ n, decode w = some (.gen n)) ↔ w &&& 0xFFFFFFFE#32 = 0x04000000#32) ∧
    (opcodeMap.filter fun o => o.matchesWord w).length ≤ 1

/-- R71: the opcode, the operand fields and the reserved bits of each format, at their places in the word. -/
def Obligations.FieldsAtTheirPlaces : Prop :=
  ∀ w : Word,
    (decode w = some .nop → w.toNat = 0) ∧
    (decode w = some .clr → w.toNat = 1 * 2 ^ 24) ∧
    (∀ ch, decode w = some (.sym ch) → w.toNat = 2 * 2 ^ 24 + ch.toNat) ∧
    (∀ q imm, decode w = some (.ldt q imm) → w.toNat = 3 * 2 ^ 24 + q.toNat * 2 ^ 16 + imm.toNat) ∧
    (∀ n, decode w = some (.gen n) → w.toNat = 4 * 2 ^ 24 + n.toNat) ∧
    (illegalWord w → decode w = none)

/-- R76: a word with an opcode of 5 or more, or with a reserved bit of its format set, matches no row, and no other word is
illegal; accepting an illegal word raises IllegalCommand with the word, and has no other effect. -/
def Obligations.IllegalWordsAreRecorded : Prop :=
  (∀ w : Word, decode w = none ↔ illegalWord w) ∧
  ∀ (s : State) (w : Word) (rest : List HostAction), illegalWord w → s.host = .word w :: rest → s.busy = false →
    step s = .next (if s.err then { s with host := rest }
      else { s with host := rest, err := true, ecode := 4#4, errdata := w })

/-- R75, R76, R78, the example of R113, and 95_test_vectors.md sections 2 to 4, 6 and 9: words of each command, written out, and
illegal ones. -/
def Obligations.SampleWordsDecode : Prop :=
  decode 0x00000000#32 = some .nop ∧ decode 0x01000000#32 = some .clr ∧ decode 0x0200004D#32 = some (.sym 0x4D#8) ∧
  decode 0x030035C5#32 = some (.ldt 0#2 0x35C5#16) ∧ decode 0x0303FFFF#32 = some (.ldt 3#2 0xFFFF#16) ∧
  decode 0x04000000#32 = some (.gen false) ∧ decode 0x04000001#32 = some (.gen true) ∧
  decode 0x00000001#32 = none ∧ decode 0x03040000#32 = none ∧ decode 0x04000002#32 = none ∧ decode 0x05000000#32 = none

/-- R78: a line with its operands in range gives the word of the table; a line with an operand out of range gives none. -/
def Obligations.AssemblerEmitsTheWord : Prop :=
  assemble .nop = some [.word 0x00000000#32] ∧ assemble .clr = some [.word 0x01000000#32] ∧
  assemble (.gen false) = some [.word 0x04000000#32] ∧ assemble (.gen true) = some [.word 0x04000001#32] ∧
  (∀ c, assemble (.sym c) = if c < 256 then some [.word (BitVec.ofNat 32 (2 * 2 ^ 24 + c))] else none) ∧
  (∀ q imm, assemble (.ldt q imm) =
    if q < 4 ∧ imm < 65536 then some [.word (BitVec.ofNat 32 (3 * 2 ^ 24 + q * 2 ^ 16 + imm))] else none)

/-! ## The step -/

/-- R56, R223: a word that decodes to a command runs it, once the port is ready; the host goes on to its next action. -/
def Obligations.StepRunsDecodedCommand : Prop :=
  ∀ (s : State) (w : Word) (rest : List HostAction) (i : Instr),
    s.host = .word w :: rest → s.busy = false → decode w = some i → step s = exec i { s with host := rest }

/-- R56: the port is ready exactly when BUSY = 0 and the host does not assert reset. R261: while BUSY = 1 a word at the port
waits. That a waiting host is one action that stays too, with no read of STATUS (R80) recorded, and that the step is then the
completion, are the model's choices (log entries 21 and 3, DESIGN CHOICE). -/
def Obligations.BusyPortHoldsTheWord : Prop :=
  (∀ s : State, s.cmdReady = true ↔ s.busy = false ∧ s.host.head? ≠ some .rst) ∧
  ∀ (s : State) (a : HostAction) (rest : List HostAction), s.host = a :: rest → ((∃ w, a = .word w) ∨ a = .wait) → s.busy = true →
    s.acceptsNext = none ∧ step s = completeGen s ∧ ∀ t, step s = .next t → t.host = s.host

/-- R236: an idle machine changes nothing. A waiting host goes on once BUSY = 0, and the step only removes the wait: R80 says that
`WAIT` reads STATUS until BUSY = 0, and that it is one action whose reads are not recorded is the model's choice (log entry 21,
DESIGN CHOICE). -/
def Obligations.IdleChangesNothing : Prop :=
  ∀ s : State, s.busy = false →
    (s.host = [] → step s = .next s) ∧ (∀ rest, s.host = .wait :: rest → step s = .next { s with host := rest })

/-- R30: every word slot of the register read port as a number, STATUS (slot 0) with its fields at the places of R26; a read
changes no element of R22 and returns the value of the current state. -/
def Obligations.RegisterMapReads : Prop :=
  (∀ s : State,
    (regRead s 0#6).toNat =
      s.busy.toNat * 2 ^ 0 + s.valid.toNat * 2 ^ 1 + s.err.toNat * 2 ^ 2 + s.ecode.toNat * 2 ^ 4 + s.started.toNat * 2 ^ 8 +
      s.pendws.toNat * 2 ^ 9 + s.tmask.toNat * 2 ^ 12 + s.nbits.toNat * 2 ^ 16 ∧
    (regRead s 1#6).toNat = s.keylen.toNat ∧
    (regRead s 2#6).toNat = s.time.toNat % 2 ^ 32 ∧ (regRead s 3#6).toNat = s.time.toNat / 2 ^ 32 ∧
    (regRead s 4#6).toNat = s.counter.toNat % 2 ^ 32 ∧ (regRead s 5#6).toNat = s.counter.toNat / 2 ^ 32 ∧
    (∀ k : Fin 5, (regRead s (BitVec.ofNat 6 (6 + k.val))).toNat = (digestByte s.digest (4 * k.val)).toNat * 2 ^ 24 +
      (digestByte s.digest (4 * k.val + 1)).toNat * 2 ^ 16 + (digestByte s.digest (4 * k.val + 2)).toNat * 2 ^ 8 +
      (digestByte s.digest (4 * k.val + 3)).toNat) ∧
    (regRead s 11#6).toNat = s.trunc.toNat % 2 ^ 31 ∧
    (regRead s 12#6).toNat = s.offset.toNat ∧
    (regRead s 13#6).toNat = s.code.toNat ∧
    (regRead s 14#6).toNat =
      s.codestr[0].toNat * 2 ^ 24 + s.codestr[1].toNat * 2 ^ 16 + s.codestr[2].toNat * 2 ^ 8 + s.codestr[3].toNat ∧
    (regRead s 15#6).toNat = s.codestr[4].toNat * 2 ^ 24 + s.codestr[5].toNat * 2 ^ 16 ∧
    regRead s 16#6 = s.errdata ∧
    regRead s 17#6 = 0x4F545031#32 ∧
    (regRead s 18#6).toNat = Config.keyCap + 30 * 2 ^ 16 + 6 * 2 ^ 24 ∧
    (∀ i : BitVec 6, 19 ≤ i.toNat → regRead s i = 0#32)) ∧
  ∀ (s : State) (i : BitVec 6) (rest : List HostAction), s.host = .rd i :: rest →
    step s = .next { s with host := rest, reads := s.reads ++ [(i, regRead s i)] }

/-- R26: the fields of STATUS by the bits of the table, every other bit 0. -/
def Obligations.StatusFields : Prop :=
  ∀ s : State,
    (regRead s 0#6).getLsbD 0 = s.busy ∧ (regRead s 0#6).getLsbD 1 = s.valid ∧ (regRead s 0#6).getLsbD 2 = s.err ∧
    (regRead s 0#6).getLsbD 3 = false ∧ (regRead s 0#6).extractLsb' 4 4 = s.ecode ∧ (regRead s 0#6).getLsbD 8 = s.started ∧
    (regRead s 0#6).getLsbD 9 = s.pendws ∧ (regRead s 0#6).extractLsb' 10 2 = 0#2 ∧ (regRead s 0#6).extractLsb' 12 4 = s.tmask ∧
    (regRead s 0#6).extractLsb' 16 3 = s.nbits ∧ (regRead s 0#6).extractLsb' 19 13 = 0#13

/-- R250: with `rst` asserted the port is not ready, and the edge takes every element of R22 to its reset value, whatever the
state: a GEN in flight writes no result. The state is the one CLR leaves, and reads return the reset values. -/
def Obligations.ResetStepRestoresReset : Prop :=
  ∀ (s : State) (rest : List HostAction), s.host = .rst :: rest →
    s.cmdReady = false ∧ ∃ t, step s = .next t ∧ AtReset t ∧ t.host = rest ∧ t.reads = s.reads ∧
      exec .clr { s with host := rest } = .next t ∧ ∀ i, regRead t i = regRead State.reset i

/-- R251: what every register slot reads after reset, and the hidden elements; ID and PARAM are unaffected by the state. -/
def Obligations.ResetRegisterValues : Prop :=
  AtReset State.reset ∧
  (∀ i : BitVec 6, regRead State.reset i = if i = 17#6 then 0x4F545031#32 else if i = 18#6 then 0x061E0080#32 else 0#32) ∧
  ∀ s : State, regRead s 17#6 = regRead State.reset 17#6 ∧ regRead s 18#6 = regRead State.reset 18#6

/-! ## NOP and CLR -/

/-- R100: NOP is the word 0 alone, any other word with OP = 0x00 is illegal, and NOP has no effect, also when ERR = 1. -/
def Obligations.NopChangesNothing : Prop :=
  encode .nop = 0x00000000#32 ∧ (∀ w, decode w = some .nop ↔ w = 0x00000000#32) ∧
  (∀ w : Word, w.toNat / 2 ^ 24 = 0 → w ≠ 0x00000000#32 → decode w = none) ∧ ∀ s : State, exec .nop s = .next s

/-- R101: CLR gives every element of R22 its reset value, also when ERR = 1; in reset state it changes nothing; it is not
accepted while BUSY = 1; and no other command clears an error. -/
def Obligations.ClrRestoresReset : Prop :=
  encode .clr = 0x01000000#32 ∧ exec .clr State.reset = .next State.reset ∧
  (∀ s : State, ∃ t, exec .clr s = .next t ∧ AtReset t ∧ SameHost s t) ∧
  (∀ (s : State) (rest : List HostAction), s.host = .word (encode .clr) :: rest → s.busy = true → s.acceptsNext = none) ∧
  ∀ (i : Instr) (s t : State), i ≠ .clr → s.err = true → exec i s = .next t → t.err = true

/-! ## SYM -/

/-- R111: the class of every byte, by the table's ranges. -/
def Obligations.CharacterClasses : Prop :=
  ∀ ch : Byte,
    (0x41 ≤ ch.toNat ∧ ch.toNat ≤ 0x5A → ∃ v, charClass ch = .symbol v ∧ v.toNat = ch.toNat - 0x41) ∧
    (0x61 ≤ ch.toNat ∧ ch.toNat ≤ 0x7A → ∃ v, charClass ch = .symbol v ∧ v.toNat = ch.toNat - 0x61) ∧
    (0x32 ≤ ch.toNat ∧ ch.toNat ≤ 0x37 → ∃ v, charClass ch = .symbol v ∧ v.toNat = ch.toNat - 0x32 + 26) ∧
    (ch.toNat ∈ [0x09, 0x0A, 0x0B, 0x0C, 0x0D, 0x20] → charClass ch = .ws) ∧
    (ch.toNat ≤ 0x08 ∨ (0x0E ≤ ch.toNat ∧ ch.toNat ≤ 0x1F) ∨ (0x21 ≤ ch.toNat ∧ ch.toNat ≤ 0x31) ∨
      (0x38 ≤ ch.toNat ∧ ch.toNat ≤ 0x40) ∨ (0x5B ≤ ch.toNat ∧ ch.toNat ≤ 0x60) ∨ 0x7B ≤ ch.toNat → charClass ch = .invalid)

/-- R110: the alphabet's 32 characters, `A` to `Z` and `2` to `7`, each with its index as its 5-bit value. -/
def Obligations.AlphabetValues : Prop :=
  alphabet.length = 32 ∧
  ∀ v : BitVec 5, (alphabet.getD v.toNat 0).toNat = (if v.toNat < 26 then 0x41 + v.toNat else 0x32 + (v.toNat - 26)) ∧
    charClass (alphabet.getD v.toNat 0) = .symbol v ∧ alphabetValue (alphabet.getD v.toNat 0) = v.toNat

/-- R113, class WS: whitespace sets PENDWS once a symbol has been accepted, and writes nothing else. -/
def Obligations.SymWhitespaceIsNoted : Prop :=
  ∀ (ch : Byte) (s : State), s.err = false → charClass ch = .ws →
    exec (.sym ch) s = .next { s with pendws := s.pendws || s.started }

/-- R113, R120, R221: an INVALID byte, and a symbol after a whitespace that followed a symbol, raise InvalidSecretEncoding with
the SYM word, and change no decoder state. -/
def Obligations.SymInvalidIsRecorded : Prop :=
  ∀ (ch : Byte) (s : State), s.err = false →
    (charClass ch = .invalid ∨ (s.pendws = true ∧ ∃ v, charClass ch = .symbol v)) →
    ∃ t, exec (.sym ch) s = .next t ∧ t.err = true ∧ t.ecode.toNat = 1 ∧ t.errdata.toNat = 2 * 2 ^ 24 + ch.toNat ∧
      SameDecoder s t ∧ SameTime s t ∧ SameResults s t ∧ SameControl s t ∧ SameHost s t

/-- R113, R122: a symbol that would emit a byte at `KEYLEN = KEY_CAP` raises KeyOverflow with the SYM word. -/
def Obligations.SymOverflowIsRecorded : Prop :=
  ∀ (ch : Byte) (v : BitVec 5) (s : State), s.err = false → charClass ch = .symbol v → s.pendws = false →
    3 ≤ s.nbits.toNat → s.keylen.toNat = Config.keyCap →
    ∃ t, exec (.sym ch) s = .next t ∧ t.err = true ∧ t.ecode.toNat = 3 ∧ t.errdata.toNat = 2 * 2 ^ 24 + ch.toNat ∧
      SameDecoder s t ∧ SameTime s t ∧ SameResults s t ∧ SameControl s t ∧ SameHost s t

/-- R113, R114: a symbol that leaves fewer than 8 bits is held: its 5 bits become the least significant of the buffer. -/
def Obligations.SymHoldsBits : Prop :=
  ∀ (ch : Byte) (v : BitVec 5) (s : State), Inv s → s.err = false → charClass ch = .symbol v → s.pendws = false →
    s.nbits.toNat < 3 →
    ∃ t, exec (.sym ch) s = .next t ∧ t.started = true ∧ t.nbits.toNat = s.nbits.toNat + 5 ∧
      t.buf.toNat = s.buf.toNat * 2 ^ 5 + v.toNat ∧ t.pendws = s.pendws ∧ t.keylen = s.keylen ∧
      (∀ a, Memory.read t.key a = Memory.read s.key a) ∧
      SameError s t ∧ SameTime s t ∧ SameResults s t ∧ SameControl s t ∧ SameHost s t

/-- R115: with `n = NBITS + 5` counted bits in `b = BUF·2^5 + v`, the top 8 bits are written at `KEY[KEYLEN]`, KEYLEN then
increments, and the emitted bits are cleared from BUF. -/
def Obligations.SymEmitsTopEightBits : Prop :=
  ∀ (ch : Byte) (v : BitVec 5) (s : State), Inv s → s.err = false → charClass ch = .symbol v → s.pendws = false →
    3 ≤ s.nbits.toNat → s.keylen.toNat < Config.keyCap →
    ∃ t, exec (.sym ch) s = .next t ∧ t.started = true ∧ t.nbits.toNat = s.nbits.toNat + 5 - 8 ∧
      t.keylen.toNat = s.keylen.toNat + 1 ∧
      (Memory.read t.key s.keylen.toNat).toNat = (s.buf.toNat * 2 ^ 5 + v.toNat) / 2 ^ (s.nbits.toNat + 5 - 8) ∧
      (∀ a, a ≠ s.keylen.toNat → Memory.read t.key a = Memory.read s.key a) ∧
      t.buf.toNat = (s.buf.toNat * 2 ^ 5 + v.toNat) % 2 ^ (s.nbits.toNat + 5 - 8) ∧ t.pendws = s.pendws ∧
      SameError s t ∧ SameTime s t ∧ SameResults s t ∧ SameControl s t ∧ SameHost s t

/-- R25, R52, R113: the frame of SYM, for every form: a form that stores writes the one key byte at KEYLEN, any other form
writes no key byte; TIME, the results, VALID, BUSY and PEND_N stay, and so do the error fields unless the SYM raises. -/
def Obligations.SymFrame : Prop :=
  ∀ (ch : Byte) (s t : State), Memory.wf s.key → exec (.sym ch) s = .next t →
    SameTime s t ∧ SameResults s t ∧ SameControl s t ∧ SameHost s t ∧
    (SameError s t ∨ (s.err = false ∧ SameDecoder s t ∧ t.err = true ∧ t.errdata = encode (.sym ch))) ∧
    (symStores ch s = true → ∀ a, a ≠ s.keylen.toNat → Memory.read t.key a = Memory.read s.key a) ∧
    (symStores ch s = false → t.keylen = s.keylen ∧ ∀ a, Memory.read t.key a = Memory.read s.key a)

/-! ## LDT -/

/-- R73, R141: LDT writes the one quarter of TIME and its TMASK bit; the other 48 bits and every other element stay. -/
def Obligations.LdtLoadsOneQuarter : Prop :=
  ∀ (q : BitVec 2) (imm : BitVec 16) (s : State), s.err = false →
    ∃ t, exec (.ldt q imm) s = .next t ∧
      (∀ k, k < 4 → t.time.toNat / 2 ^ (16 * k) % 2 ^ 16 =
        if k = q.toNat then imm.toNat else s.time.toNat / 2 ^ (16 * k) % 2 ^ 16) ∧
      (∀ k, k < 4 → t.tmask.getLsbD k = (s.tmask.getLsbD k || decide (k = q.toNat))) ∧
      SameDecoder s t ∧ SameResults s t ∧ SameControl s t ∧ SameError s t ∧ SameHost s t

/-- R79: the four words of `LDT64 t`, accepted one after the other, leave TIME = t with all four quarters loaded. -/
def Obligations.Ldt64LoadsTime : Prop :=
  ∀ (n : Nat) (s : State) (rest : List HostAction), n < 2 ^ 64 → s.err = false → s.busy = false → s.host = ldt64Actions n ++ rest →
    ∃ t, Host.Core.run core 4 s = .next t ∧ t.time.toNat = n ∧ t.tmask = 0b1111#4 ∧ t.host = rest ∧ t.reads = s.reads ∧
      SameDecoder s t ∧ SameResults s t ∧ SameControl s t ∧ SameError s t

/-! ## GEN -/

/-- R190: with TIME available GEN clears VALID, keeps N and sets BUSY, and nothing else changes; otherwise it raises
ClockUnavailable with the GEN word and leaves VALID unchanged. While ERR = 1 it is dropped. -/
def Obligations.GenAcceptStarts : Prop :=
  ∀ (n : Bool) (s : State),
    (encode (.gen n)).toNat = 4 * 2 ^ 24 + n.toNat ∧
    (s.err = false → s.tmask = 0b1111#4 → exec (.gen n) s = .next { s with valid := false, pendN := n, busy := true }) ∧
    (s.err = false → s.tmask ≠ 0b1111#4 →
      exec (.gen n) s = .next { s with err := true, ecode := 2#4, errdata := encode (.gen n) }) ∧
    (s.err = true → exec (.gen n) s = .next s) ∧
    (s.busy = true → s.acceptsNext = none)

/-- R191, with R143, R160, R192, R195 and R196: a completion writes every result at once, from TIME, N and the key; the decoder,
TIME and the error fields stay. The HMAC's message is the counter's eight bytes, the most significant first (R9, R53, R147). -/
def Obligations.GenCompletionWritesResults : Prop :=
  ∀ s : State, s.completesNext = true → s.keylen.toNat ≤ Config.keyCap →
    ∃ t, step s = .next t ∧
      t.counter.toNat = s.time.toNat / 30 + s.pendN.toNat ∧
      (be64 t.counter).length = 8 ∧
      (∀ i, i < 8 → ((be64 t.counter).getD i 0).toNat = t.counter.toNat / 2 ^ (56 - 8 * i) % 256) ∧
      t.digest.toList = hmacSha1 s.keyBytes (be64 t.counter) ∧
      t.offset.toNat = (digestByte t.digest 19).toNat % 16 ∧
      t.trunc.toNat = (digestByte t.digest t.offset.toNat).toNat % 2 ^ 7 * 2 ^ 24 +
        (digestByte t.digest (t.offset.toNat + 1)).toNat * 2 ^ 16 +
        (digestByte t.digest (t.offset.toNat + 2)).toNat * 2 ^ 8 + (digestByte t.digest (t.offset.toNat + 3)).toNat ∧
      t.code.toNat = t.trunc.toNat % 1000000 ∧
      (∀ j : Fin 6, t.codestr[j].toNat = 0x30 + t.code.toNat / 10 ^ (5 - j.val) % 10) ∧
      t.pendN = false ∧ t.valid = true ∧ t.busy = false ∧
      SameDecoder s t ∧ SameTime s t ∧ SameError s t ∧ SameHost s t

/-- R199: GEN's Accept leaves the result registers; while BUSY = 1, VALID reads 0, and they keep what they read until the
completion; a reset abandons the GEN and leaves the reset state. -/
def Obligations.ResultsHoldWhileBusy : Prop :=
  (∀ (n : Bool) (s t : State), exec (.gen n) s = .next t →
    ∀ i : BitVec 6, 4 ≤ i.toNat → i.toNat ≤ 15 → regRead t i = regRead s i) ∧
  ∀ s t : State, Inv s → s.busy = true → step s = .next t →
    (regRead s 0#6).getLsbD 1 = false ∧
    (s.completesNext = false → s.resetsNext = false → t.busy = true ∧
      ∀ i : BitVec 6, 4 ≤ i.toNat → i.toNat ≤ 15 → regRead t i = regRead s i) ∧
    (s.resetsNext = true → AtReset t)

/-- R144: the counter never overflows 64 bits: it is `floor(T/30) + N` exactly, and 614891469123651721 is its largest value. -/
def Obligations.ScalerNeverOverflows : Prop :=
  (scaleTime 0xFFFFFFFFFFFFFFFF#64 true).toNat = 614891469123651721 ∧
  ∀ (time : BitVec 64) (n : Bool),
    (scaleTime time n).toNat = time.toNat / 30 + n.toNat ∧ (scaleTime time n).toNat ≤ 614891469123651721

/-- R198: the results of a completed GEN are a function of the key bytes and of `floor(TIME/30) + N` alone. -/
def Obligations.ResultsDependOnKeyAndCounterOnly : Prop :=
  ∀ s s' t t' : State, s.completesNext = true → s'.completesNext = true → s.keyBytes = s'.keyBytes →
    s.time.toNat / 30 + s.pendN.toNat = s'.time.toNat / 30 + s'.pendN.toNat →
    step s = .next t → step s' = .next t' → SameResults t t'

/-- R145: two GENs with the same key and N, at times in one 30-second window `30k .. 30k + 29`, give the same results; the
counter is `k + N`. -/
def Obligations.SameWindowSameCode : Prop :=
  ∀ (s s' t t' : State) (k : Nat), s.completesNext = true → s'.completesNext = true → s.keyBytes = s'.keyBytes → s.pendN = s'.pendN →
    30 * k ≤ s.time.toNat → s.time.toNat ≤ 30 * k + 29 → 30 * k ≤ s'.time.toNat → s'.time.toNat ≤ 30 * k + 29 →
    step s = .next t → step s' = .next t' → t.counter.toNat = k + s.pendN.toNat ∧ SameResults t t'

/-- R146: GEN next in window `k` gives the results of a plain GEN in window `k + 1`. -/
def Obligations.NextWindowIsTheFollowingWindow : Prop :=
  ∀ (s s' t t' : State) (k : Nat), s.completesNext = true → s'.completesNext = true → s.keyBytes = s'.keyBytes →
    s.pendN = true → s'.pendN = false → s.time.toNat / 30 = k → s'.time.toNat / 30 = k + 1 →
    step s = .next t → step s' = .next t' → t.counter.toNat = k + 1 ∧ SameResults t t'

/-! ## HMAC-SHA1, truncation and digits -/

/-- R161: the padding, with the least number of zero bytes, and its split into 64-byte blocks. Its last eight bytes are the bit
length, the most significant byte first (R9). -/
def Obligations.Sha1PaddingFillsBlocks : Prop :=
  ∀ x : List Byte, ∃ k, sha1Pad x = x ++ [0x80#8] ++ List.replicate k 0x00#8 ++ be64 (BitVec.ofNat 64 (8 * x.length)) ∧
    (x.length + 1 + k) % 64 = 56 ∧ (∀ j, j < k → (x.length + 1 + j) % 64 ≠ 56) ∧
    (∀ i, i < 8 → ((be64 (BitVec.ofNat 64 (8 * x.length))).getD i 0).toNat = 8 * x.length / 2 ^ (56 - 8 * i) % 256) ∧
    (sha1Pad x).length = x.length + 1 + k + 8 ∧ (sha1Pad x).length % 64 = 0 ∧
    (sha1Blocks ((sha1Pad x).length / 64) (sha1Pad x)).flatten = sha1Pad x ∧
    ∀ b ∈ sha1Blocks ((sha1Pad x).length / 64) (sha1Pad x), b.length = 64

/-- R162: the schedule's 80 words: the block's words, big-endian, then the recurrence. -/
def Obligations.Sha1ScheduleRecurrence : Prop :=
  ∀ block : List Byte, block.length = 64 →
    (sha1Schedule block).length = 80 ∧
    (∀ t, t < 16 → ((sha1Schedule block).getD t 0).toNat = (block.getD (4 * t) 0).toNat * 2 ^ 24 +
      (block.getD (4 * t + 1) 0).toNat * 2 ^ 16 + (block.getD (4 * t + 2) 0).toNat * 2 ^ 8 + (block.getD (4 * t + 3) 0).toNat) ∧
    ∀ t, 16 ≤ t → t < 80 → (sha1Schedule block).getD t 0 =
      ((sha1Schedule block).getD (t - 3) 0 ^^^ (sha1Schedule block).getD (t - 8) 0 ^^^
        (sha1Schedule block).getD (t - 14) 0 ^^^ (sha1Schedule block).getD (t - 16) 0).rotateLeft 1

/-- R163, R164: the round functions, the round constants and the initial chaining value. -/
def Obligations.Sha1RoundTables : Prop :=
  (∀ (t : Nat) (b c d : Word),
    (t ≤ 19 → sha1F t b c d = (b &&& c) ||| (~~~b &&& d) ∧ sha1K t = 0x5A827999#32) ∧
    (20 ≤ t → t ≤ 39 → sha1F t b c d = b ^^^ c ^^^ d ∧ sha1K t = 0x6ED9EBA1#32) ∧
    (40 ≤ t → t ≤ 59 → sha1F t b c d = (b &&& c) ||| (b &&& d) ||| (c &&& d) ∧ sha1K t = 0x8F1BBCDC#32) ∧
    (60 ≤ t → t ≤ 79 → sha1F t b c d = b ^^^ c ^^^ d ∧ sha1K t = 0xCA62C1D6#32)) ∧
  sha1Init = ⟨0x67452301#32, 0xEFCDAB89#32, 0x98BADCFE#32, 0x10325476#32, 0xC3D2E1F0#32⟩

/-- R165, R166: the 80 rounds of a block, in order over its schedule, from the chaining value, which they are added to; the blocks
of the padded message, in order from the initial value; and the 20 output bytes of the last chaining value, each word's most
significant byte first. The schedule, the round functions and constants, and the padding are those of the statements above. -/
def Obligations.Sha1CompressesBlocksInOrder : Prop :=
  (∀ (h : Sha1Words) (block : List Byte), ∃ v : Nat → Sha1Words, v 0 = h ∧
    (∀ t, t < 80 →
      (v (t + 1)).a = (v t).a.rotateLeft 5 + sha1F t (v t).b (v t).c (v t).d + (v t).e + sha1K t + (sha1Schedule block).getD t 0 ∧
      (v (t + 1)).b = (v t).a ∧ (v (t + 1)).c = (v t).b.rotateLeft 30 ∧ (v (t + 1)).d = (v t).c ∧ (v (t + 1)).e = (v t).d) ∧
    sha1Compress h block = ⟨h.a + (v 80).a, h.b + (v 80).b, h.c + (v 80).c, h.d + (v 80).d, h.e + (v 80).e⟩) ∧
  ∀ x : List Byte, ∃ v : Nat → Sha1Words, v 0 = sha1Init ∧
    (∀ i, i < (sha1Pad x).length / 64 → v (i + 1) = sha1Compress (v i) (((sha1Pad x).drop (64 * i)).take 64)) ∧
    (sha1 x).length = 20 ∧
    ∀ k, k < 4 →
      ((sha1 x).getD k 0).toNat = (v ((sha1Pad x).length / 64)).a.toNat / 2 ^ (24 - 8 * k) % 256 ∧
      ((sha1 x).getD (4 + k) 0).toNat = (v ((sha1Pad x).length / 64)).b.toNat / 2 ^ (24 - 8 * k) % 256 ∧
      ((sha1 x).getD (8 + k) 0).toNat = (v ((sha1Pad x).length / 64)).c.toNat / 2 ^ (24 - 8 * k) % 256 ∧
      ((sha1 x).getD (12 + k) 0).toNat = (v ((sha1Pad x).length / 64)).d.toNat / 2 ^ (24 - 8 * k) % 256 ∧
      ((sha1 x).getD (16 + k) 0).toNat = (v ((sha1Pad x).length / 64)).e.toNat / 2 ^ (24 - 8 * k) % 256

/-- R175, R177: HMAC nests two SHA-1s over the key block, combined byte by byte with 0x36 inside and with 0x5C outside. -/
def Obligations.HmacNestsTwoHashes : Prop :=
  ∀ k m : List Byte,
    hmacSha1 k m = sha1 ((hmacKeyBlock k).map (· ^^^ 0x5C#8) ++ sha1 ((hmacKeyBlock k).map (· ^^^ 0x36#8) ++ m))

/-- R178: the blocks of a GEN: two for the inner hash, two for the outer one, and `ceil((KEYLEN + 9)/64)` to hash a key. -/
def Obligations.HmacBlocksPerGen : Prop :=
  ∀ (k : List Byte) (c : BitVec 64),
    (sha1Pad (xorPad 0x36#8 (hmacKeyBlock k) ++ be64 c)).length / 64 = 2 ∧
    (sha1Pad (xorPad 0x5C#8 (hmacKeyBlock k) ++ sha1 (xorPad 0x36#8 (hmacKeyBlock k) ++ be64 c))).length / 64 = 2 ∧
    (sha1Pad k).length / 64 = (k.length + 9 + 63) / 64

/-- R176: the key block is 64 bytes: the key, or its 20-byte hash when it is longer than 64 bytes, then zero bytes;
the key is `KEY[0..KEYLEN-1]`. -/
def Obligations.HmacKeyBlockIsPadded : Prop :=
  (∀ s : State, s.keyBytes.length = s.keylen.toNat ∧ ∀ j, j < s.keylen.toNat → s.keyBytes.getD j 0 = Memory.read s.key j) ∧
  ∀ k : List Byte, (hmacKeyBlock k).length = 64 ∧
    (k.length ≤ 64 → hmacKeyBlock k = k ++ List.replicate (64 - k.length) 0x00#8) ∧
    (64 < k.length → (sha1 k).length = 20 ∧ hmacKeyBlock k = sha1 k ++ List.replicate 44 0x00#8) ∧
    hmacKeyBlock [] = List.replicate 64 0x00#8

/-- 95_test_vectors.md section 3.4, from R176: a trailing zero byte does not change the digest under a key of less than 64 bytes. -/
def Obligations.TrailingZeroKeyBytesDoNotMatter : Prop :=
  ∀ k m : List Byte, k.length < 64 → hmacSha1 (k ++ [0x00#8]) m = hmacSha1 k m ∧ (hmacSha1 k m).length = 20

/-- R192, R193, R194: the offset is the low nibble of the last byte, the window lies in bytes 0 to 18, and binaryCode is its
big-endian value with the top bit masked off, below 2^31. -/
def Obligations.DynamicTruncation : Prop :=
  ∀ d : Vector Byte 20,
    (truncOffset d).toNat = (digestByte d 19).toNat % 16 ∧ (truncOffset d).toNat + 3 ≤ 18 ∧
    (binaryCode d).toNat = (digestByte d (truncOffset d).toNat).toNat % 2 ^ 7 * 2 ^ 24 +
      (digestByte d ((truncOffset d).toNat + 1)).toNat * 2 ^ 16 + (digestByte d ((truncOffset d).toNat + 2)).toNat * 2 ^ 8 +
      (digestByte d ((truncOffset d).toNat + 3)).toNat ∧
    (binaryCode d).toNat < 2 ^ 31

/-- R195, R196: the code is binaryCode mod 10^6, and its six characters are its decimal digits, the most significant first,
each an ASCII digit; code 42 gives "000042". -/
def Obligations.CodeIsSixDigits : Prop :=
  (∀ bc : Word, (codeOf bc).toNat = bc.toNat % 1000000 ∧ (codeOf bc).toNat ≤ 999999) ∧
  (∀ c : BitVec 20, c.toNat ≤ 999999 →
    (∀ j : Fin 6, 0x30 ≤ (codeString c)[j].toNat ∧ (codeString c)[j].toNat ≤ 0x39 ∧
      (codeString c)[j].toNat = 0x30 + c.toNat / 10 ^ (5 - j.val) % 10) ∧
    (codeString c).toList.foldl (fun acc b => 10 * acc + (b.toNat - 0x30)) 0 = c.toNat) ∧
  codeString 42#20 = #v[0x30, 0x30, 0x30, 0x30, 0x34, 0x32]

/-! ## Errors -/

/-- R222, with the codes of R221: the error procedure records the first error of a session, and does nothing else. -/
def Obligations.FirstErrorIsRecorded : Prop :=
  (ErrorKind.code .invalidSecretEncoding = 1#4 ∧ ErrorKind.code .clockUnavailable = 2#4 ∧ ErrorKind.code .keyOverflow = 3#4 ∧
    ErrorKind.code .illegalCommand = 4#4) ∧
  ∀ (e : ErrorKind) (w : Word) (s : State),
    (s.err = false → raise e w s = .next { s with err := true, ecode := e.code, errdata := w }) ∧
    (s.err = true → raise e w s = .next s)

/-- R223: how every accepted word is dispatched. -/
def Obligations.DispatchOfAcceptedWords : Prop :=
  ∀ (w : Word) (s : State),
    (decode w = none → acceptWord w s = raise .illegalCommand w s) ∧
    (w.toNat / 2 ^ 24 = 0 ∧ decode w ≠ none → acceptWord w s = exec .nop s) ∧
    (w.toNat / 2 ^ 24 = 1 ∧ decode w ≠ none → acceptWord w s = exec .clr s) ∧
    (2 ≤ w.toNat / 2 ^ 24 ∧ decode w ≠ none ∧ s.err = true → acceptWord w s = .next s) ∧
    (w.toNat / 2 ^ 24 = 2 ∧ decode w ≠ none → acceptWord w s = exec (.sym (w.extractLsb' 0 8)) s) ∧
    (w.toNat / 2 ^ 24 = 3 ∧ decode w ≠ none →
      acceptWord w s = exec (.ldt (w.extractLsb' 16 2) (w.extractLsb' 0 16)) s) ∧
    (w.toNat / 2 ^ 24 = 4 ∧ decode w ≠ none → acceptWord w s = exec (.gen (w.getLsbD 0)) s)

/-- R226: a command raises at most one error, the first in the order of the rule; and it raises none where none applies. No
word is accepted while BUSY = 1, and a completion raises nothing. -/
def Obligations.FirstConditionDecidesTheError : Prop :=
  (∀ s : State, s.busy = true → s.acceptsNext = none) ∧
  (∀ s t : State, s.completesNext = true → step s = .next t → SameError s t) ∧
  ∀ (w : Word) (s : State), Inv s → s.busy = false → ∃ t, acceptWord w s = .next t ∧
    (s.err = true → decode w ≠ some .clr → t = s) ∧
    (s.err = false → decode w = none → t.err = true ∧ t.ecode = 4#4 ∧ t.errdata = w) ∧
    (s.err = false → ∀ ch, decode w = some (.sym ch) →
      (charClass ch = .invalid → t.err = true ∧ t.ecode = 1#4 ∧ t.errdata = w) ∧
      (charClass ch = .ws → t.err = false) ∧
      (∀ v, charClass ch = .symbol v →
        (s.pendws = true → t.err = true ∧ t.ecode = 1#4 ∧ t.errdata = w) ∧
        (s.pendws = false → 8 ≤ s.nbits.toNat + 5 → s.keylen.toNat = Config.keyCap → t.err = true ∧ t.ecode = 3#4 ∧ t.errdata = w) ∧
        (s.pendws = false → (s.nbits.toNat + 5 < 8 ∨ s.keylen.toNat ≠ Config.keyCap) → t.err = false))) ∧
    (s.err = false → ∀ n, decode w = some (.gen n) →
      (s.tmask ≠ 0b1111#4 → t.err = true ∧ t.ecode = 2#4 ∧ t.errdata = w) ∧ (s.tmask = 0b1111#4 → t.err = false)) ∧
    (s.err = false → (decode w = some .nop ∨ decode w = some .clr ∨ ∃ q imm, decode w = some (.ldt q imm)) → t.err = false)

/-- R224, R225: an error stays, with the code and the word of the first one, until CLR is accepted or reset, and either of
them returns the whole state to its reset values. -/
def Obligations.OnlyClrOrResetClearsAnError : Prop :=
  ∀ s t : State, s.err = true → step s = .next t →
    (s.resetsNext = false → s.acceptsNext ≠ some 0x01000000#32 → SameError s t) ∧
    (s.resetsNext = true ∨ s.acceptsNext = some 0x01000000#32 → AtReset t)

/-! ## Whole-machine rules -/

/-- R25, R199, R232: every element changes only by its writers: the decoder by SYM, TIME by LDT, the results by a completion,
BUSY, VALID and PEND_N by GEN's two steps, the error fields by the first error, everything by CLR and reset. -/
def Obligations.ElementsChangeOnlyByTheirWriters : Prop :=
  ∀ s t : State, step s = .next t → s.resetsNext = false → s.acceptsNext ≠ some (encode .clr) →
    ((∀ ch, s.acceptsNext ≠ some (encode (.sym ch))) → SameDecoder s t) ∧
    ((∀ q imm, s.acceptsNext ≠ some (encode (.ldt q imm))) → SameTime s t) ∧
    (s.completesNext = false → SameResults s t) ∧
    (s.completesNext = false → (∀ n, s.acceptsNext ≠ some (encode (.gen n))) → SameControl s t) ∧
    (SameError s t ∨ (s.err = false ∧ t.err = true ∧ s.acceptsNext = some t.errdata))

/-- R32: no register index returns a byte of KEY or a bit of BUF. -/
def Obligations.KeyIsNotReadable : Prop :=
  ∀ (s : State) (m : Memory) (b : BitVec 12) (i : BitVec 6), regRead { s with key := m, buf := b } i = regRead s i

/-- R32, R34, R179: until a GEN completes, two machines that differ only in KEY's bytes and in BUF stop or go on alike, and
their states still differ only there: nothing the host reads depends on the key. -/
def Obligations.KeyIsInvisibleUntilCompletion : Prop :=
  ∀ s s' : State, SameButKeyMaterial s s' → s.completesNext = false →
    (∀ t, step s = .next t → ∃ t', step s' = .next t' ∧ SameButKeyMaterial t t' ∧ t'.reads = t.reads) ∧
    (∀ r, step s = .fault r → step s' = .fault r)

/-- R23: the invariants hold at reset. -/
def Obligations.InvariantsHoldAtReset : Prop := Inv State.reset

/-- R23, R191, R226: from every state that meets the invariants a step answers a next state, with no fault and no refusal, and
that state meets them again. -/
def Obligations.EveryStepKeepsTheInvariants : Prop :=
  ∀ s : State, Inv s → ∃ t, step s = .next t ∧ Inv t

/-- R12, R190, R270: a GEN in flight is completed (or abandoned by a reset) after at most the host's leading reads and one more
step; a host whose reads fit into GEN_LAT_MAX cycles sees BUSY = 0 within GEN_LAT_MAX steps. R12 says only that the completion
comes eventually, within GEN_LAT_MAX cycles: both bounds in steps rest on the model's choice of when it comes (log entry 3,
DESIGN CHOICE), and the second also on one cycle a read and a GEN_LAT_MAX without a value (log entry 5, DESIGN CHOICE). -/
def Obligations.GenCompletesEventually : Prop :=
  ∀ s : State, Inv s → s.busy = true →
    (∃ k t, k ≤ leadingReads s.host + 1 ∧ Host.Core.run core k s = .next t ∧ t.busy = false) ∧
    (WithinLatency s → ∃ k t, k ≤ Config.genLatMax ∧ Host.Core.run core k s = .next t ∧ t.busy = false)

/-! ## The decoder against the source's function, and a whole session -/

/-- 41_base32_decoder.md section 5 (R123, parts 1 to 3, with R117): the SYMs of any byte string, accepted by a fresh decoder, end
with an error exactly when the normalised string is not valid or its key does not fit; with no error the key is
Decode(Normalize(s)) and `8·KEYLEN + NBITS = 5L`. -/
def Obligations.SymStreamDecodesTheSecret : Prop :=
  ∀ (secret : List Byte) (s : State), DecoderFresh s →
    ∃ t, execAll (secret.map Instr.sym) s = .next t ∧
      (t.err = false ↔ secretFits secret = true) ∧
      (t.err = false → t.keyBytes = decodeSecret (normalizeSecret secret) ∧
        8 * t.keylen.toNat + t.nbits.toNat = 5 * (normalizeSecret secret).length) ∧
      SameTime s t ∧ SameResults s t ∧ SameControl s t ∧ SameHost s t

/-- R79: `TOTP "s", t` is the source's `generateCode`: run from any idle state of a run, its words end with the code of the
decoded secret at `floor(t/30) + N` and VALID = 1, or, for a secret that is refused, with an error and VALID = 0. -/
def Obligations.TotpSessionGeneratesTheCode : Prop :=
  ∀ (secret : List Byte) (time : Nat) (next : Bool) (s : State), time < 2 ^ 64 → s.busy = false →
    s.host = totpActions (secret.map BitVec.toNat) time next →
    ∃ t, Host.Core.run core (secret.length + 7) s = .next t ∧ t.busy = false ∧ t.host = [] ∧
      (secretFits secret = true → t.valid = true ∧ t.err = false ∧ t.counter.toNat = time / 30 + next.toNat ∧
        t.code = totpCode (decodeSecret (normalizeSecret secret)) (time / 30 + next.toNat) ∧ t.codestr = codeString t.code) ∧
      (secretFits secret = false → t.valid = false ∧ t.err = true ∧ t.code = 0#20)
end

