-- ==== Sys2Proof/Laws/State.lean ====
section
/-! SUPPORT. One lemma for each field of each named update of State, true by definition: later proofs never unfold a record
update. -/

namespace Sys2Proof.Machine

/-! ## the error procedure (R222) -/

@[simp] theorem State.recordError_busy (e : ErrorKind) (w : Word) (s : State) : (s.recordError e w).busy = s.busy := rfl
@[simp] theorem State.recordError_valid (e : ErrorKind) (w : Word) (s : State) : (s.recordError e w).valid = s.valid := rfl
@[simp] theorem State.recordError_err (e : ErrorKind) (w : Word) (s : State) : (s.recordError e w).err = true := rfl
@[simp] theorem State.recordError_ecode (e : ErrorKind) (w : Word) (s : State) : (s.recordError e w).ecode = e.code := rfl
@[simp] theorem State.recordError_errdata (e : ErrorKind) (w : Word) (s : State) : (s.recordError e w).errdata = w := rfl
@[simp] theorem State.recordError_started (e : ErrorKind) (w : Word) (s : State) : (s.recordError e w).started = s.started := rfl
@[simp] theorem State.recordError_pendws (e : ErrorKind) (w : Word) (s : State) : (s.recordError e w).pendws = s.pendws := rfl
@[simp] theorem State.recordError_nbits (e : ErrorKind) (w : Word) (s : State) : (s.recordError e w).nbits = s.nbits := rfl
@[simp] theorem State.recordError_buf (e : ErrorKind) (w : Word) (s : State) : (s.recordError e w).buf = s.buf := rfl
@[simp] theorem State.recordError_keylen (e : ErrorKind) (w : Word) (s : State) : (s.recordError e w).keylen = s.keylen := rfl
@[simp] theorem State.recordError_key (e : ErrorKind) (w : Word) (s : State) : (s.recordError e w).key = s.key := rfl
@[simp] theorem State.recordError_time (e : ErrorKind) (w : Word) (s : State) : (s.recordError e w).time = s.time := rfl
@[simp] theorem State.recordError_tmask (e : ErrorKind) (w : Word) (s : State) : (s.recordError e w).tmask = s.tmask := rfl
@[simp] theorem State.recordError_counter (e : ErrorKind) (w : Word) (s : State) : (s.recordError e w).counter = s.counter := rfl
@[simp] theorem State.recordError_digest (e : ErrorKind) (w : Word) (s : State) : (s.recordError e w).digest = s.digest := rfl
@[simp] theorem State.recordError_trunc (e : ErrorKind) (w : Word) (s : State) : (s.recordError e w).trunc = s.trunc := rfl
@[simp] theorem State.recordError_offset (e : ErrorKind) (w : Word) (s : State) : (s.recordError e w).offset = s.offset := rfl
@[simp] theorem State.recordError_code (e : ErrorKind) (w : Word) (s : State) : (s.recordError e w).code = s.code := rfl
@[simp] theorem State.recordError_codestr (e : ErrorKind) (w : Word) (s : State) : (s.recordError e w).codestr = s.codestr := rfl
@[simp] theorem State.recordError_pendN (e : ErrorKind) (w : Word) (s : State) : (s.recordError e w).pendN = s.pendN := rfl
@[simp] theorem State.recordError_host (e : ErrorKind) (w : Word) (s : State) : (s.recordError e w).host = s.host := rfl
@[simp] theorem State.recordError_reads (e : ErrorKind) (w : Word) (s : State) : (s.recordError e w).reads = s.reads := rfl

/-! ## CLR and reset (R101, R250) -/

@[simp] theorem State.clear_busy (s : State) : (s.clear).busy = State.reset.busy := rfl
@[simp] theorem State.clear_valid (s : State) : (s.clear).valid = State.reset.valid := rfl
@[simp] theorem State.clear_err (s : State) : (s.clear).err = State.reset.err := rfl
@[simp] theorem State.clear_ecode (s : State) : (s.clear).ecode = State.reset.ecode := rfl
@[simp] theorem State.clear_errdata (s : State) : (s.clear).errdata = State.reset.errdata := rfl
@[simp] theorem State.clear_started (s : State) : (s.clear).started = State.reset.started := rfl
@[simp] theorem State.clear_pendws (s : State) : (s.clear).pendws = State.reset.pendws := rfl
@[simp] theorem State.clear_nbits (s : State) : (s.clear).nbits = State.reset.nbits := rfl
@[simp] theorem State.clear_buf (s : State) : (s.clear).buf = State.reset.buf := rfl
@[simp] theorem State.clear_keylen (s : State) : (s.clear).keylen = State.reset.keylen := rfl
@[simp] theorem State.clear_key (s : State) : (s.clear).key = State.reset.key := rfl
@[simp] theorem State.clear_time (s : State) : (s.clear).time = State.reset.time := rfl
@[simp] theorem State.clear_tmask (s : State) : (s.clear).tmask = State.reset.tmask := rfl
@[simp] theorem State.clear_counter (s : State) : (s.clear).counter = State.reset.counter := rfl
@[simp] theorem State.clear_digest (s : State) : (s.clear).digest = State.reset.digest := rfl
@[simp] theorem State.clear_trunc (s : State) : (s.clear).trunc = State.reset.trunc := rfl
@[simp] theorem State.clear_offset (s : State) : (s.clear).offset = State.reset.offset := rfl
@[simp] theorem State.clear_code (s : State) : (s.clear).code = State.reset.code := rfl
@[simp] theorem State.clear_codestr (s : State) : (s.clear).codestr = State.reset.codestr := rfl
@[simp] theorem State.clear_pendN (s : State) : (s.clear).pendN = State.reset.pendN := rfl
@[simp] theorem State.clear_host (s : State) : (s.clear).host = s.host := rfl
@[simp] theorem State.clear_reads (s : State) : (s.clear).reads = s.reads := rfl

/-! ## whitespace in the secret (R113) -/

@[simp] theorem State.noteWhitespace_busy (s : State) : (s.noteWhitespace).busy = s.busy := rfl
@[simp] theorem State.noteWhitespace_valid (s : State) : (s.noteWhitespace).valid = s.valid := rfl
@[simp] theorem State.noteWhitespace_err (s : State) : (s.noteWhitespace).err = s.err := rfl
@[simp] theorem State.noteWhitespace_ecode (s : State) : (s.noteWhitespace).ecode = s.ecode := rfl
@[simp] theorem State.noteWhitespace_errdata (s : State) : (s.noteWhitespace).errdata = s.errdata := rfl
@[simp] theorem State.noteWhitespace_started (s : State) : (s.noteWhitespace).started = s.started := rfl
@[simp] theorem State.noteWhitespace_pendws (s : State) : (s.noteWhitespace).pendws = pendwsAfterWhitespace s := rfl
@[simp] theorem State.noteWhitespace_nbits (s : State) : (s.noteWhitespace).nbits = s.nbits := rfl
@[simp] theorem State.noteWhitespace_buf (s : State) : (s.noteWhitespace).buf = s.buf := rfl
@[simp] theorem State.noteWhitespace_keylen (s : State) : (s.noteWhitespace).keylen = s.keylen := rfl
@[simp] theorem State.noteWhitespace_key (s : State) : (s.noteWhitespace).key = s.key := rfl
@[simp] theorem State.noteWhitespace_time (s : State) : (s.noteWhitespace).time = s.time := rfl
@[simp] theorem State.noteWhitespace_tmask (s : State) : (s.noteWhitespace).tmask = s.tmask := rfl
@[simp] theorem State.noteWhitespace_counter (s : State) : (s.noteWhitespace).counter = s.counter := rfl
@[simp] theorem State.noteWhitespace_digest (s : State) : (s.noteWhitespace).digest = s.digest := rfl
@[simp] theorem State.noteWhitespace_trunc (s : State) : (s.noteWhitespace).trunc = s.trunc := rfl
@[simp] theorem State.noteWhitespace_offset (s : State) : (s.noteWhitespace).offset = s.offset := rfl
@[simp] theorem State.noteWhitespace_code (s : State) : (s.noteWhitespace).code = s.code := rfl
@[simp] theorem State.noteWhitespace_codestr (s : State) : (s.noteWhitespace).codestr = s.codestr := rfl
@[simp] theorem State.noteWhitespace_pendN (s : State) : (s.noteWhitespace).pendN = s.pendN := rfl
@[simp] theorem State.noteWhitespace_host (s : State) : (s.noteWhitespace).host = s.host := rfl
@[simp] theorem State.noteWhitespace_reads (s : State) : (s.noteWhitespace).reads = s.reads := rfl

/-! ## a symbol that emits no byte (R113) -/

@[simp] theorem State.holdSymbol_busy (v : BitVec 5) (s : State) : (s.holdSymbol v).busy = s.busy := rfl
@[simp] theorem State.holdSymbol_valid (v : BitVec 5) (s : State) : (s.holdSymbol v).valid = s.valid := rfl
@[simp] theorem State.holdSymbol_err (v : BitVec 5) (s : State) : (s.holdSymbol v).err = s.err := rfl
@[simp] theorem State.holdSymbol_ecode (v : BitVec 5) (s : State) : (s.holdSymbol v).ecode = s.ecode := rfl
@[simp] theorem State.holdSymbol_errdata (v : BitVec 5) (s : State) : (s.holdSymbol v).errdata = s.errdata := rfl
@[simp] theorem State.holdSymbol_started (v : BitVec 5) (s : State) : (s.holdSymbol v).started = true := rfl
@[simp] theorem State.holdSymbol_pendws (v : BitVec 5) (s : State) : (s.holdSymbol v).pendws = s.pendws := rfl
@[simp] theorem State.holdSymbol_nbits (v : BitVec 5) (s : State) : (s.holdSymbol v).nbits = BitVec.ofNat 3 (s.nbits.toNat + 5) := rfl
@[simp] theorem State.holdSymbol_buf (v : BitVec 5) (s : State) : (s.holdSymbol v).buf = pushBits s.buf v := rfl
@[simp] theorem State.holdSymbol_keylen (v : BitVec 5) (s : State) : (s.holdSymbol v).keylen = s.keylen := rfl
@[simp] theorem State.holdSymbol_key (v : BitVec 5) (s : State) : (s.holdSymbol v).key = s.key := rfl
@[simp] theorem State.holdSymbol_time (v : BitVec 5) (s : State) : (s.holdSymbol v).time = s.time := rfl
@[simp] theorem State.holdSymbol_tmask (v : BitVec 5) (s : State) : (s.holdSymbol v).tmask = s.tmask := rfl
@[simp] theorem State.holdSymbol_counter (v : BitVec 5) (s : State) : (s.holdSymbol v).counter = s.counter := rfl
@[simp] theorem State.holdSymbol_digest (v : BitVec 5) (s : State) : (s.holdSymbol v).digest = s.digest := rfl
@[simp] theorem State.holdSymbol_trunc (v : BitVec 5) (s : State) : (s.holdSymbol v).trunc = s.trunc := rfl
@[simp] theorem State.holdSymbol_offset (v : BitVec 5) (s : State) : (s.holdSymbol v).offset = s.offset := rfl
@[simp] theorem State.holdSymbol_code (v : BitVec 5) (s : State) : (s.holdSymbol v).code = s.code := rfl
@[simp] theorem State.holdSymbol_codestr (v : BitVec 5) (s : State) : (s.holdSymbol v).codestr = s.codestr := rfl
@[simp] theorem State.holdSymbol_pendN (v : BitVec 5) (s : State) : (s.holdSymbol v).pendN = s.pendN := rfl
@[simp] theorem State.holdSymbol_host (v : BitVec 5) (s : State) : (s.holdSymbol v).host = s.host := rfl
@[simp] theorem State.holdSymbol_reads (v : BitVec 5) (s : State) : (s.holdSymbol v).reads = s.reads := rfl

/-! ## a symbol that emits a byte (R115) -/

@[simp] theorem State.emitSymbol_busy (v : BitVec 5) (s : State) : (s.emitSymbol v).busy = s.busy := rfl
@[simp] theorem State.emitSymbol_valid (v : BitVec 5) (s : State) : (s.emitSymbol v).valid = s.valid := rfl
@[simp] theorem State.emitSymbol_err (v : BitVec 5) (s : State) : (s.emitSymbol v).err = s.err := rfl
@[simp] theorem State.emitSymbol_ecode (v : BitVec 5) (s : State) : (s.emitSymbol v).ecode = s.ecode := rfl
@[simp] theorem State.emitSymbol_errdata (v : BitVec 5) (s : State) : (s.emitSymbol v).errdata = s.errdata := rfl
@[simp] theorem State.emitSymbol_started (v : BitVec 5) (s : State) : (s.emitSymbol v).started = true := rfl
@[simp] theorem State.emitSymbol_pendws (v : BitVec 5) (s : State) : (s.emitSymbol v).pendws = s.pendws := rfl
@[simp] theorem State.emitSymbol_nbits (v : BitVec 5) (s : State) : (s.emitSymbol v).nbits = BitVec.ofNat 3 (s.nbits.toNat + 5 - 8) := rfl
@[simp] theorem State.emitSymbol_buf (v : BitVec 5) (s : State) : (s.emitSymbol v).buf = keepBits (pushBits s.buf v) (s.nbits.toNat + 5 - 8) := rfl
@[simp] theorem State.emitSymbol_keylen (v : BitVec 5) (s : State) : (s.emitSymbol v).keylen = s.keylen + 1#16 := rfl
@[simp] theorem State.emitSymbol_key (v : BitVec 5) (s : State) : (s.emitSymbol v).key = Memory.write s.key s.keylen.toNat ((pushBits s.buf v).extractLsb' (s.nbits.toNat + 5 - 8) 8) := rfl
@[simp] theorem State.emitSymbol_time (v : BitVec 5) (s : State) : (s.emitSymbol v).time = s.time := rfl
@[simp] theorem State.emitSymbol_tmask (v : BitVec 5) (s : State) : (s.emitSymbol v).tmask = s.tmask := rfl
@[simp] theorem State.emitSymbol_counter (v : BitVec 5) (s : State) : (s.emitSymbol v).counter = s.counter := rfl
@[simp] theorem State.emitSymbol_digest (v : BitVec 5) (s : State) : (s.emitSymbol v).digest = s.digest := rfl
@[simp] theorem State.emitSymbol_trunc (v : BitVec 5) (s : State) : (s.emitSymbol v).trunc = s.trunc := rfl
@[simp] theorem State.emitSymbol_offset (v : BitVec 5) (s : State) : (s.emitSymbol v).offset = s.offset := rfl
@[simp] theorem State.emitSymbol_code (v : BitVec 5) (s : State) : (s.emitSymbol v).code = s.code := rfl
@[simp] theorem State.emitSymbol_codestr (v : BitVec 5) (s : State) : (s.emitSymbol v).codestr = s.codestr := rfl
@[simp] theorem State.emitSymbol_pendN (v : BitVec 5) (s : State) : (s.emitSymbol v).pendN = s.pendN := rfl
@[simp] theorem State.emitSymbol_host (v : BitVec 5) (s : State) : (s.emitSymbol v).host = s.host := rfl
@[simp] theorem State.emitSymbol_reads (v : BitVec 5) (s : State) : (s.emitSymbol v).reads = s.reads := rfl

/-! ## LDT (R141) -/

@[simp] theorem State.loadQuarter_busy (q : BitVec 2) (imm : BitVec 16) (s : State) : (s.loadQuarter q imm).busy = s.busy := rfl
@[simp] theorem State.loadQuarter_valid (q : BitVec 2) (imm : BitVec 16) (s : State) : (s.loadQuarter q imm).valid = s.valid := rfl
@[simp] theorem State.loadQuarter_err (q : BitVec 2) (imm : BitVec 16) (s : State) : (s.loadQuarter q imm).err = s.err := rfl
@[simp] theorem State.loadQuarter_ecode (q : BitVec 2) (imm : BitVec 16) (s : State) : (s.loadQuarter q imm).ecode = s.ecode := rfl
@[simp] theorem State.loadQuarter_errdata (q : BitVec 2) (imm : BitVec 16) (s : State) : (s.loadQuarter q imm).errdata = s.errdata := rfl
@[simp] theorem State.loadQuarter_started (q : BitVec 2) (imm : BitVec 16) (s : State) : (s.loadQuarter q imm).started = s.started := rfl
@[simp] theorem State.loadQuarter_pendws (q : BitVec 2) (imm : BitVec 16) (s : State) : (s.loadQuarter q imm).pendws = s.pendws := rfl
@[simp] theorem State.loadQuarter_nbits (q : BitVec 2) (imm : BitVec 16) (s : State) : (s.loadQuarter q imm).nbits = s.nbits := rfl
@[simp] theorem State.loadQuarter_buf (q : BitVec 2) (imm : BitVec 16) (s : State) : (s.loadQuarter q imm).buf = s.buf := rfl
@[simp] theorem State.loadQuarter_keylen (q : BitVec 2) (imm : BitVec 16) (s : State) : (s.loadQuarter q imm).keylen = s.keylen := rfl
@[simp] theorem State.loadQuarter_key (q : BitVec 2) (imm : BitVec 16) (s : State) : (s.loadQuarter q imm).key = s.key := rfl
@[simp] theorem State.loadQuarter_time (q : BitVec 2) (imm : BitVec 16) (s : State) : (s.loadQuarter q imm).time = insertQuarter s.time q imm := rfl
@[simp] theorem State.loadQuarter_tmask (q : BitVec 2) (imm : BitVec 16) (s : State) : (s.loadQuarter q imm).tmask = tmaskAfterLoad s.tmask q := rfl
@[simp] theorem State.loadQuarter_counter (q : BitVec 2) (imm : BitVec 16) (s : State) : (s.loadQuarter q imm).counter = s.counter := rfl
@[simp] theorem State.loadQuarter_digest (q : BitVec 2) (imm : BitVec 16) (s : State) : (s.loadQuarter q imm).digest = s.digest := rfl
@[simp] theorem State.loadQuarter_trunc (q : BitVec 2) (imm : BitVec 16) (s : State) : (s.loadQuarter q imm).trunc = s.trunc := rfl
@[simp] theorem State.loadQuarter_offset (q : BitVec 2) (imm : BitVec 16) (s : State) : (s.loadQuarter q imm).offset = s.offset := rfl
@[simp] theorem State.loadQuarter_code (q : BitVec 2) (imm : BitVec 16) (s : State) : (s.loadQuarter q imm).code = s.code := rfl
@[simp] theorem State.loadQuarter_codestr (q : BitVec 2) (imm : BitVec 16) (s : State) : (s.loadQuarter q imm).codestr = s.codestr := rfl
@[simp] theorem State.loadQuarter_pendN (q : BitVec 2) (imm : BitVec 16) (s : State) : (s.loadQuarter q imm).pendN = s.pendN := rfl
@[simp] theorem State.loadQuarter_host (q : BitVec 2) (imm : BitVec 16) (s : State) : (s.loadQuarter q imm).host = s.host := rfl
@[simp] theorem State.loadQuarter_reads (q : BitVec 2) (imm : BitVec 16) (s : State) : (s.loadQuarter q imm).reads = s.reads := rfl

/-! ## the Accept step of GEN (R190) -/

@[simp] theorem State.startGen_busy (n : Bool) (s : State) : (s.startGen n).busy = true := rfl
@[simp] theorem State.startGen_valid (n : Bool) (s : State) : (s.startGen n).valid = false := rfl
@[simp] theorem State.startGen_err (n : Bool) (s : State) : (s.startGen n).err = s.err := rfl
@[simp] theorem State.startGen_ecode (n : Bool) (s : State) : (s.startGen n).ecode = s.ecode := rfl
@[simp] theorem State.startGen_errdata (n : Bool) (s : State) : (s.startGen n).errdata = s.errdata := rfl
@[simp] theorem State.startGen_started (n : Bool) (s : State) : (s.startGen n).started = s.started := rfl
@[simp] theorem State.startGen_pendws (n : Bool) (s : State) : (s.startGen n).pendws = s.pendws := rfl
@[simp] theorem State.startGen_nbits (n : Bool) (s : State) : (s.startGen n).nbits = s.nbits := rfl
@[simp] theorem State.startGen_buf (n : Bool) (s : State) : (s.startGen n).buf = s.buf := rfl
@[simp] theorem State.startGen_keylen (n : Bool) (s : State) : (s.startGen n).keylen = s.keylen := rfl
@[simp] theorem State.startGen_key (n : Bool) (s : State) : (s.startGen n).key = s.key := rfl
@[simp] theorem State.startGen_time (n : Bool) (s : State) : (s.startGen n).time = s.time := rfl
@[simp] theorem State.startGen_tmask (n : Bool) (s : State) : (s.startGen n).tmask = s.tmask := rfl
@[simp] theorem State.startGen_counter (n : Bool) (s : State) : (s.startGen n).counter = s.counter := rfl
@[simp] theorem State.startGen_digest (n : Bool) (s : State) : (s.startGen n).digest = s.digest := rfl
@[simp] theorem State.startGen_trunc (n : Bool) (s : State) : (s.startGen n).trunc = s.trunc := rfl
@[simp] theorem State.startGen_offset (n : Bool) (s : State) : (s.startGen n).offset = s.offset := rfl
@[simp] theorem State.startGen_code (n : Bool) (s : State) : (s.startGen n).code = s.code := rfl
@[simp] theorem State.startGen_codestr (n : Bool) (s : State) : (s.startGen n).codestr = s.codestr := rfl
@[simp] theorem State.startGen_pendN (n : Bool) (s : State) : (s.startGen n).pendN = n := rfl
@[simp] theorem State.startGen_host (n : Bool) (s : State) : (s.startGen n).host = s.host := rfl
@[simp] theorem State.startGen_reads (n : Bool) (s : State) : (s.startGen n).reads = s.reads := rfl

/-! ## the Complete step of GEN (R191) -/

@[simp] theorem State.writeResults_busy (c : BitVec 64) (h : Vector Byte 20) (s : State) : (s.writeResults c h).busy = false := rfl
@[simp] theorem State.writeResults_valid (c : BitVec 64) (h : Vector Byte 20) (s : State) : (s.writeResults c h).valid = true := rfl
@[simp] theorem State.writeResults_err (c : BitVec 64) (h : Vector Byte 20) (s : State) : (s.writeResults c h).err = s.err := rfl
@[simp] theorem State.writeResults_ecode (c : BitVec 64) (h : Vector Byte 20) (s : State) : (s.writeResults c h).ecode = s.ecode := rfl
@[simp] theorem State.writeResults_errdata (c : BitVec 64) (h : Vector Byte 20) (s : State) : (s.writeResults c h).errdata = s.errdata := rfl
@[simp] theorem State.writeResults_started (c : BitVec 64) (h : Vector Byte 20) (s : State) : (s.writeResults c h).started = s.started := rfl
@[simp] theorem State.writeResults_pendws (c : BitVec 64) (h : Vector Byte 20) (s : State) : (s.writeResults c h).pendws = s.pendws := rfl
@[simp] theorem State.writeResults_nbits (c : BitVec 64) (h : Vector Byte 20) (s : State) : (s.writeResults c h).nbits = s.nbits := rfl
@[simp] theorem State.writeResults_buf (c : BitVec 64) (h : Vector Byte 20) (s : State) : (s.writeResults c h).buf = s.buf := rfl
@[simp] theorem State.writeResults_keylen (c : BitVec 64) (h : Vector Byte 20) (s : State) : (s.writeResults c h).keylen = s.keylen := rfl
@[simp] theorem State.writeResults_key (c : BitVec 64) (h : Vector Byte 20) (s : State) : (s.writeResults c h).key = s.key := rfl
@[simp] theorem State.writeResults_time (c : BitVec 64) (h : Vector Byte 20) (s : State) : (s.writeResults c h).time = s.time := rfl
@[simp] theorem State.writeResults_tmask (c : BitVec 64) (h : Vector Byte 20) (s : State) : (s.writeResults c h).tmask = s.tmask := rfl
@[simp] theorem State.writeResults_counter (c : BitVec 64) (h : Vector Byte 20) (s : State) : (s.writeResults c h).counter = c := rfl
@[simp] theorem State.writeResults_digest (c : BitVec 64) (h : Vector Byte 20) (s : State) : (s.writeResults c h).digest = h := rfl
@[simp] theorem State.writeResults_trunc (c : BitVec 64) (h : Vector Byte 20) (s : State) : (s.writeResults c h).trunc = binaryCode h := rfl
@[simp] theorem State.writeResults_offset (c : BitVec 64) (h : Vector Byte 20) (s : State) : (s.writeResults c h).offset = truncOffset h := rfl
@[simp] theorem State.writeResults_code (c : BitVec 64) (h : Vector Byte 20) (s : State) : (s.writeResults c h).code = codeOf (binaryCode h) := rfl
@[simp] theorem State.writeResults_codestr (c : BitVec 64) (h : Vector Byte 20) (s : State) : (s.writeResults c h).codestr = codeString (codeOf (binaryCode h)) := rfl
@[simp] theorem State.writeResults_pendN (c : BitVec 64) (h : Vector Byte 20) (s : State) : (s.writeResults c h).pendN = false := rfl
@[simp] theorem State.writeResults_host (c : BitVec 64) (h : Vector Byte 20) (s : State) : (s.writeResults c h).host = s.host := rfl
@[simp] theorem State.writeResults_reads (c : BitVec 64) (h : Vector Byte 20) (s : State) : (s.writeResults c h).reads = s.reads := rfl

/-! ## the host going on to its next action -/

@[simp] theorem State.advance_busy (s : State) : (s.advance).busy = s.busy := rfl
@[simp] theorem State.advance_valid (s : State) : (s.advance).valid = s.valid := rfl
@[simp] theorem State.advance_err (s : State) : (s.advance).err = s.err := rfl
@[simp] theorem State.advance_ecode (s : State) : (s.advance).ecode = s.ecode := rfl
@[simp] theorem State.advance_errdata (s : State) : (s.advance).errdata = s.errdata := rfl
@[simp] theorem State.advance_started (s : State) : (s.advance).started = s.started := rfl
@[simp] theorem State.advance_pendws (s : State) : (s.advance).pendws = s.pendws := rfl
@[simp] theorem State.advance_nbits (s : State) : (s.advance).nbits = s.nbits := rfl
@[simp] theorem State.advance_buf (s : State) : (s.advance).buf = s.buf := rfl
@[simp] theorem State.advance_keylen (s : State) : (s.advance).keylen = s.keylen := rfl
@[simp] theorem State.advance_key (s : State) : (s.advance).key = s.key := rfl
@[simp] theorem State.advance_time (s : State) : (s.advance).time = s.time := rfl
@[simp] theorem State.advance_tmask (s : State) : (s.advance).tmask = s.tmask := rfl
@[simp] theorem State.advance_counter (s : State) : (s.advance).counter = s.counter := rfl
@[simp] theorem State.advance_digest (s : State) : (s.advance).digest = s.digest := rfl
@[simp] theorem State.advance_trunc (s : State) : (s.advance).trunc = s.trunc := rfl
@[simp] theorem State.advance_offset (s : State) : (s.advance).offset = s.offset := rfl
@[simp] theorem State.advance_code (s : State) : (s.advance).code = s.code := rfl
@[simp] theorem State.advance_codestr (s : State) : (s.advance).codestr = s.codestr := rfl
@[simp] theorem State.advance_pendN (s : State) : (s.advance).pendN = s.pendN := rfl
@[simp] theorem State.advance_host (s : State) : (s.advance).host = s.host.tail := rfl
@[simp] theorem State.advance_reads (s : State) : (s.advance).reads = s.reads := rfl

/-! ## a register read (R30) -/

@[simp] theorem State.readPort_busy (i : BitVec 6) (s : State) : (s.readPort i).busy = s.busy := rfl
@[simp] theorem State.readPort_valid (i : BitVec 6) (s : State) : (s.readPort i).valid = s.valid := rfl
@[simp] theorem State.readPort_err (i : BitVec 6) (s : State) : (s.readPort i).err = s.err := rfl
@[simp] theorem State.readPort_ecode (i : BitVec 6) (s : State) : (s.readPort i).ecode = s.ecode := rfl
@[simp] theorem State.readPort_errdata (i : BitVec 6) (s : State) : (s.readPort i).errdata = s.errdata := rfl
@[simp] theorem State.readPort_started (i : BitVec 6) (s : State) : (s.readPort i).started = s.started := rfl
@[simp] theorem State.readPort_pendws (i : BitVec 6) (s : State) : (s.readPort i).pendws = s.pendws := rfl
@[simp] theorem State.readPort_nbits (i : BitVec 6) (s : State) : (s.readPort i).nbits = s.nbits := rfl
@[simp] theorem State.readPort_buf (i : BitVec 6) (s : State) : (s.readPort i).buf = s.buf := rfl
@[simp] theorem State.readPort_keylen (i : BitVec 6) (s : State) : (s.readPort i).keylen = s.keylen := rfl
@[simp] theorem State.readPort_key (i : BitVec 6) (s : State) : (s.readPort i).key = s.key := rfl
@[simp] theorem State.readPort_time (i : BitVec 6) (s : State) : (s.readPort i).time = s.time := rfl
@[simp] theorem State.readPort_tmask (i : BitVec 6) (s : State) : (s.readPort i).tmask = s.tmask := rfl
@[simp] theorem State.readPort_counter (i : BitVec 6) (s : State) : (s.readPort i).counter = s.counter := rfl
@[simp] theorem State.readPort_digest (i : BitVec 6) (s : State) : (s.readPort i).digest = s.digest := rfl
@[simp] theorem State.readPort_trunc (i : BitVec 6) (s : State) : (s.readPort i).trunc = s.trunc := rfl
@[simp] theorem State.readPort_offset (i : BitVec 6) (s : State) : (s.readPort i).offset = s.offset := rfl
@[simp] theorem State.readPort_code (i : BitVec 6) (s : State) : (s.readPort i).code = s.code := rfl
@[simp] theorem State.readPort_codestr (i : BitVec 6) (s : State) : (s.readPort i).codestr = s.codestr := rfl
@[simp] theorem State.readPort_pendN (i : BitVec 6) (s : State) : (s.readPort i).pendN = s.pendN := rfl
@[simp] theorem State.readPort_host (i : BitVec 6) (s : State) : (s.readPort i).host = s.host := rfl
@[simp] theorem State.readPort_reads (i : BitVec 6) (s : State) : (s.readPort i).reads = s.reads ++ [(i, regRead s i)] := rfl

/-! ## the host presenting a word -/

@[simp] theorem State.presentWord_busy (w : Word) (s : State) : (s.presentWord w).busy = false := rfl
@[simp] theorem State.presentWord_valid (w : Word) (s : State) : (s.presentWord w).valid = s.valid := rfl
@[simp] theorem State.presentWord_err (w : Word) (s : State) : (s.presentWord w).err = s.err := rfl
@[simp] theorem State.presentWord_ecode (w : Word) (s : State) : (s.presentWord w).ecode = s.ecode := rfl
@[simp] theorem State.presentWord_errdata (w : Word) (s : State) : (s.presentWord w).errdata = s.errdata := rfl
@[simp] theorem State.presentWord_started (w : Word) (s : State) : (s.presentWord w).started = s.started := rfl
@[simp] theorem State.presentWord_pendws (w : Word) (s : State) : (s.presentWord w).pendws = s.pendws := rfl
@[simp] theorem State.presentWord_nbits (w : Word) (s : State) : (s.presentWord w).nbits = s.nbits := rfl
@[simp] theorem State.presentWord_buf (w : Word) (s : State) : (s.presentWord w).buf = s.buf := rfl
@[simp] theorem State.presentWord_keylen (w : Word) (s : State) : (s.presentWord w).keylen = s.keylen := rfl
@[simp] theorem State.presentWord_key (w : Word) (s : State) : (s.presentWord w).key = s.key := rfl
@[simp] theorem State.presentWord_time (w : Word) (s : State) : (s.presentWord w).time = s.time := rfl
@[simp] theorem State.presentWord_tmask (w : Word) (s : State) : (s.presentWord w).tmask = s.tmask := rfl
@[simp] theorem State.presentWord_counter (w : Word) (s : State) : (s.presentWord w).counter = s.counter := rfl
@[simp] theorem State.presentWord_digest (w : Word) (s : State) : (s.presentWord w).digest = s.digest := rfl
@[simp] theorem State.presentWord_trunc (w : Word) (s : State) : (s.presentWord w).trunc = s.trunc := rfl
@[simp] theorem State.presentWord_offset (w : Word) (s : State) : (s.presentWord w).offset = s.offset := rfl
@[simp] theorem State.presentWord_code (w : Word) (s : State) : (s.presentWord w).code = s.code := rfl
@[simp] theorem State.presentWord_codestr (w : Word) (s : State) : (s.presentWord w).codestr = s.codestr := rfl
@[simp] theorem State.presentWord_pendN (w : Word) (s : State) : (s.presentWord w).pendN = s.pendN := rfl
@[simp] theorem State.presentWord_host (w : Word) (s : State) : (s.presentWord w).host = .word w :: s.host := rfl
@[simp] theorem State.presentWord_reads (w : Word) (s : State) : (s.presentWord w).reads = s.reads := rfl

end Sys2Proof.Machine
end

