-- ==== Sys2Proof/Laws/Decode.lean ====
section
/-! SUPPORT. Command words as numbers: what each row of the opcode map matches, and the word of each command (30_encoding.md). -/

namespace Sys2Proof

/-- Keeping the bits from `k` up is dropping the remainder by `2^k`. -/
theorem and_highMask_toNat (w : Word) (k : Nat) :
    (w &&& (BitVec.allOnes 32 <<< k)).toNat = w.toNat / 2 ^ k * 2 ^ k := by
  have h : w &&& (BitVec.allOnes 32 <<< k) = (w >>> k) <<< k := by
    ext i hi
    simp only [BitVec.getElem_and, BitVec.getElem_shiftLeft, BitVec.getElem_ushiftRight]
    by_cases hk : i < k
    · simp [hk]
    · rw [BitVec.getElem_allOnes]
      simp [hk, Nat.add_sub_cancel' (Nat.le_of_not_lt hk), BitVec.getLsbD_eq_getElem hi]
  rw [h, BitVec.toNat_shiftLeft, BitVec.toNat_ushiftRight, Nat.shiftRight_eq_div_pow, Nat.shiftLeft_eq, Nat.mod_eq_of_lt]
  exact lt_of_le_of_lt (Nat.div_mul_le_self _ _) w.isLt

/-- A row's test on the bits from `k` up, as a division. -/
theorem matchesWord_high {o : Opcode} {k c : Nat} (hm : o.mask = BitVec.allOnes 32 <<< k) (hp : o.pattern.toNat = c * 2 ^ k) (w : Word) :
    o.matchesWord w = true ↔ w.toNat / 2 ^ k = c := by
  rw [Opcode.matchesWord, beq_iff_eq, ← BitVec.toNat_inj, hm, and_highMask_toNat, hp]
  exact Nat.mul_left_inj (Nat.two_pow_pos k).ne'

theorem matchesWord_nop (w : Word) : Opcode.nop.matchesWord w = true ↔ w.toNat = 0 := by
  simpa using matchesWord_high (o := .nop) (k := 0) (c := 0) (by decide) (by decide) w

theorem matchesWord_clr (w : Word) : Opcode.clr.matchesWord w = true ↔ w.toNat = 2 ^ 24 := by
  simpa only [Nat.pow_zero, Nat.div_one] using matchesWord_high (o := .clr) (k := 0) (c := 2 ^ 24) (by decide) (by decide) w

theorem matchesWord_sym (w : Word) : Opcode.sym.matchesWord w = true ↔ w.toNat / 2 ^ 8 = 2 * 2 ^ 16 :=
  matchesWord_high (by decide) (by decide) w

theorem matchesWord_ldt (w : Word) : Opcode.ldt.matchesWord w = true ↔ w.toNat / 2 ^ 18 = 3 * 2 ^ 6 :=
  matchesWord_high (by decide) (by decide) w

theorem matchesWord_gen (w : Word) : Opcode.gen.matchesWord w = true ↔ w.toNat / 2 ^ 1 = 4 * 2 ^ 23 :=
  matchesWord_high (by decide) (by decide) w

/-- The decoder as a chain of the rows' tests. -/
theorem decode_eq (w : Word) : decode w =
    if w.toNat = 0 then some .nop
    else if w.toNat = 2 ^ 24 then some .clr
    else if w.toNat / 2 ^ 8 = 2 * 2 ^ 16 then some (.sym (w.extractLsb' 0 8))
    else if w.toNat / 2 ^ 18 = 3 * 2 ^ 6 then some (.ldt (w.extractLsb' 16 2) (w.extractLsb' 0 16))
    else if w.toNat / 2 ^ 1 = 4 * 2 ^ 23 then some (.gen (w.getLsbD 0))
    else none := by
  simp only [← matchesWord_nop, ← matchesWord_clr, ← matchesWord_sym, ← matchesWord_ldt, ← matchesWord_gen, decode, opcodeMap,
    List.find?_cons, List.find?_nil]
  cases Opcode.nop.matchesWord w <;> cases Opcode.clr.matchesWord w <;> cases Opcode.sym.matchesWord w <;>
    cases Opcode.ldt.matchesWord w <;> cases Opcode.gen.matchesWord w <;> rfl

@[simp] theorem encode_nop_toNat : (encode .nop).toNat = 0 := rfl

@[simp] theorem encode_clr_toNat : (encode .clr).toNat = 2 ^ 24 := rfl

@[simp] theorem encode_sym_toNat (ch : Byte) : (encode (.sym ch)).toNat = 2 * 2 ^ 24 + ch.toNat := by
  have := ch.isLt
  rw [encode, BitVec.toNat_or, BitVec.toNat_setWidth, Nat.mod_eq_of_lt (by omega)]
  exact (Nat.shiftLeft_add_eq_or_of_lt (i := 24) (a := 2) (by omega)).symm

@[simp] theorem encode_ldt_toNat (q : BitVec 2) (imm : BitVec 16) :
    (encode (.ldt q imm)).toNat = 3 * 2 ^ 24 + q.toNat * 2 ^ 16 + imm.toNat := by
  have hq := q.isLt
  have hi := imm.isLt
  have h1 : (q.setWidth 32 <<< 16).toNat = q.toNat <<< 16 := by
    rw [BitVec.toNat_shiftLeft, BitVec.toNat_setWidth, Nat.mod_eq_of_lt (by omega), Nat.shiftLeft_eq,
      Nat.mod_eq_of_lt (by omega), Nat.shiftLeft_eq]
  rw [encode, BitVec.toNat_or, BitVec.toNat_or, h1, BitVec.toNat_setWidth, Nat.mod_eq_of_lt (by omega), Nat.or_assoc,
    ← Nat.shiftLeft_add_eq_or_of_lt (i := 16) (by omega), Nat.shiftLeft_eq]
  rw [show (0x03000000#32).toNat = 3 <<< 24 from rfl, ← Nat.shiftLeft_add_eq_or_of_lt (i := 24) (by omega), Nat.shiftLeft_eq]
  omega

@[simp] theorem encode_gen_toNat (n : Bool) : (encode (.gen n)).toNat = 4 * 2 ^ 24 + n.toNat := by
  cases n <;> rfl

/-- A command's word identifies its fields. -/
theorem instrOf_fields (w : Word) :
    (w.extractLsb' 0 8).toNat = w.toNat % 2 ^ 8 ∧ (w.extractLsb' 16 2).toNat = w.toNat / 2 ^ 16 % 2 ^ 2 ∧
      (w.extractLsb' 0 16).toNat = w.toNat % 2 ^ 16 ∧ (w.getLsbD 0).toNat = w.toNat % 2 := by
  refine ⟨by simp, by simp [Nat.shiftRight_eq_div_pow], by simp, ?_⟩
  rw [BitVec.getLsbD, Nat.testBit_zero]
  rcases Nat.mod_two_eq_zero_or_one w.toNat with h | h <;> simp [h]

end Sys2Proof
end

