-- ==== Sys2Proof/Laws/Memory.lean ====
section
/-! SUPPORT. The key buffer: reading after writing, and the canonical form, which every write keeps (20_memory.md rule R52). -/

namespace Sys2Proof.Machine

@[simp] theorem Memory.read_nil (i : Nat) : Memory.read [] i = Memory.unlisted := rfl

theorem Memory.read_cons (a : Nat) (x : Byte) (m : Memory) (i : Nat) :
    Memory.read ((a, x) :: m) i = if a = i then x else Memory.read m i := rfl

/-- Below every listed index a byte reads as unlisted. -/
theorem Memory.read_of_lt {m : Memory} {i : Nat} (h : ∀ c ∈ m, i < c.1) : Memory.read m i = Memory.unlisted := by
  induction m with
  | nil => rfl
  | cons c m ih =>
    obtain ⟨a, x⟩ := c
    have ha : i < a := h (a, x) (by simp)
    rw [Memory.read_cons, if_neg (by omega)]
    exact ih fun c hc => h c (List.mem_cons_of_mem _ hc)

/-- At and above a bound of every listed index a byte reads as unlisted. -/
theorem Memory.read_of_ge {m : Memory} {i : Nat} (h : ∀ c ∈ m, c.1 < i) : Memory.read m i = Memory.unlisted := by
  induction m with
  | nil => rfl
  | cons c m ih =>
    obtain ⟨a, x⟩ := c
    have ha : a < i := h (a, x) (by simp)
    rw [Memory.read_cons, if_neg (by omega)]
    exact ih fun c hc => h c (List.mem_cons_of_mem _ hc)

theorem Memory.wf_cons {a : Nat} {x : Byte} {m : Memory} :
    Memory.wf ((a, x) :: m) ↔ (∀ c ∈ m, a < c.1) ∧ x ≠ Memory.unlisted ∧ Memory.wf m := by
  simp only [Memory.wf, List.pairwise_cons, List.forall_mem_cons]
  tauto

/-- A write before the first entry. -/
theorem Memory.write_cons_lt {a i : Nat} (h : i < a) (x v : Byte) (m : Memory) :
    Memory.write ((a, x) :: m) i v = if v = Memory.unlisted then (a, x) :: m else (i, v) :: (a, x) :: m := by
  simp [Memory.write, h]

/-- A write at the first entry. -/
theorem Memory.write_cons_self (a : Nat) (x v : Byte) (m : Memory) :
    Memory.write ((a, x) :: m) a v = if v = Memory.unlisted then m else (a, v) :: m := by
  simp [Memory.write]

/-- A write after the first entry. -/
theorem Memory.write_cons_gt {a i : Nat} (h : a < i) (x v : Byte) (m : Memory) :
    Memory.write ((a, x) :: m) i v = (a, x) :: Memory.write m i v := by
  simp [Memory.write, h.not_gt, h.ne']

/-- Reading an entry put in front. -/
theorem Memory.read_ite_cons {m : Memory} {i : Nat} (v : Byte) (j : Nat) (h : Memory.read m i = Memory.unlisted) :
    Memory.read (if v = Memory.unlisted then m else (i, v) :: m) j = if j = i then v else Memory.read m j := by
  by_cases hv : v = Memory.unlisted
  · rw [if_pos hv]
    by_cases hj : j = i
    · rw [if_pos hj, hj, h, hv]
    · rw [if_neg hj]
  · rw [if_neg hv, Memory.read_cons]
    simp only [eq_comm (a := i)]

/-- A read after a write: the byte written at its index, every other byte as before. -/
theorem Memory.read_write {m : Memory} (h : Memory.wf m) (i : Nat) (v : Byte) (j : Nat) :
    Memory.read (Memory.write m i v) j = if j = i then v else Memory.read m j := by
  induction m with
  | nil => exact Memory.read_ite_cons v j rfl
  | cons c m ih =>
    obtain ⟨a, x⟩ := c
    obtain ⟨hlt, hx, hm⟩ := Memory.wf_cons.1 h
    rcases Nat.lt_trichotomy i a with hi | rfl | hi
    · rw [Memory.write_cons_lt hi]
      refine Memory.read_ite_cons v j (Memory.read_of_lt fun c hc => ?_)
      obtain rfl | hc := List.mem_cons.1 hc
      · exact hi
      · exact lt_trans hi (hlt c hc)
    · rw [Memory.write_cons_self, Memory.read_ite_cons v j (Memory.read_of_lt hlt), Memory.read_cons]
      by_cases hj : j = i
      · rw [if_pos hj, if_pos hj]
      · rw [if_neg hj, if_neg hj, if_neg (Ne.symm hj)]
    · rw [Memory.write_cons_gt hi, Memory.read_cons, Memory.read_cons, ih hm]
      by_cases hj : a = j
      · rw [if_pos hj, if_neg (by omega), if_pos hj]
      · rw [if_neg hj, if_neg hj]

/-- Every entry after a write was there before, or is the one written. -/
theorem Memory.mem_write {m : Memory} {i : Nat} {v : Byte} {c : Host.Cell} (h : c ∈ Memory.write m i v) :
    c ∈ m ∨ (c = (i, v) ∧ v ≠ Memory.unlisted) := by
  induction m with
  | nil =>
    simp only [Memory.write] at h
    split_ifs at h with hv
    · exact .inl h
    · exact .inr ⟨by simpa using h, hv⟩
  | cons d m ih =>
    obtain ⟨a, x⟩ := d
    simp only [Memory.write] at h
    split_ifs at h with h1 hv h2 hv
    · exact .inl h
    · obtain rfl | h := List.mem_cons.1 h
      · exact .inr ⟨rfl, hv⟩
      · exact .inl h
    · exact .inl (List.mem_cons_of_mem _ h)
    · obtain rfl | h := List.mem_cons.1 h
      · exact .inr ⟨rfl, hv⟩
      · exact .inl (List.mem_cons_of_mem _ h)
    · obtain rfl | h := List.mem_cons.1 h
      · exact .inl (by simp)
      · exact (ih h).imp_left (List.mem_cons_of_mem _)

/-- A write keeps the canonical form. -/
theorem Memory.write_wf {m : Memory} (h : Memory.wf m) (i : Nat) (v : Byte) : Memory.wf (Memory.write m i v) := by
  induction m with
  | nil =>
    simp only [Memory.write]
    split_ifs with hv
    · exact h
    · simp [Memory.wf, hv]
  | cons c m ih =>
    obtain ⟨a, x⟩ := c
    obtain ⟨hlt, hx, hm⟩ := Memory.wf_cons.1 h
    simp only [Memory.write]
    split_ifs with h1 hv h2 hv
    · exact h
    · refine Memory.wf_cons.2 ⟨fun c hc => ?_, hv, h⟩
      obtain rfl | hc := List.mem_cons.1 hc
      · exact h1
      · exact lt_trans h1 (hlt c hc)
    · exact hm
    · exact Memory.wf_cons.2 ⟨h2 ▸ hlt, hv, hm⟩
    · refine Memory.wf_cons.2 ⟨fun c hc => ?_, hx, ih hm⟩
      obtain hc | ⟨rfl, -⟩ := Memory.mem_write hc
      · exact hlt c hc
      · show a < i
        omega

/-- Reset memory lists nothing and has the canonical form. -/
theorem reset_key_wf : Memory.wf State.reset.key := by simp [State.reset, Memory.wf]

/-- Two canonical memories that read alike everywhere are equal. -/
theorem Memory.ext_of_wf {m n : Memory} (hm : Memory.wf m) (hn : Memory.wf n) (h : ∀ i, Memory.read m i = Memory.read n i) :
    m = n := by
  induction m generalizing n with
  | nil =>
    cases n with
    | nil => rfl
    | cons d n =>
      obtain ⟨b, y⟩ := d
      obtain ⟨-, hy, -⟩ := Memory.wf_cons.1 hn
      have := h b
      rw [Memory.read_nil, Memory.read_cons, if_pos rfl] at this
      exact absurd this.symm hy
  | cons c m ih =>
    obtain ⟨a, x⟩ := c
    obtain ⟨ha, hx, hm'⟩ := Memory.wf_cons.1 hm
    cases n with
    | nil =>
      have := h a
      rw [Memory.read_nil, Memory.read_cons, if_pos rfl] at this
      exact absurd this hx
    | cons d n =>
      obtain ⟨b, y⟩ := d
      obtain ⟨hb, hy, hn'⟩ := Memory.wf_cons.1 hn
      have hab : a = b := by
        by_contra hne
        rcases Nat.lt_or_gt_of_ne hne with hlt | hlt
        · have := h a
          rw [Memory.read_cons, if_pos rfl, Memory.read_cons, if_neg (by omega),
            Memory.read_of_lt fun c hc => lt_trans hlt (hb c hc)] at this
          exact hx this
        · have := h b
          rw [Memory.read_cons, if_neg hne, Memory.read_cons, if_pos rfl,
            Memory.read_of_lt fun c hc => lt_trans hlt (ha c hc)] at this
          exact hy this.symm
      subst hab
      have hxy : x = y := by simpa [Memory.read_cons] using h a
      subst hxy
      congr 1
      refine ih hm' hn' fun i => ?_
      by_cases hi : a = i
      · subst hi
        rw [Memory.read_of_lt ha, Memory.read_of_lt hb]
      · simpa [Memory.read_cons, hi] using h i

end Sys2Proof.Machine
end

