-- ==== Sys2Proof/Laws/Commands.lean ====
section
/-! SUPPORT. What the shared operations and the commands can do, said once: later proofs cite these lemmas and do not unfold the
operations again. -/

namespace Sys2Proof.Machine

/-! ## The error procedure and the drop on ERR = 1 -/

theorem raise_of_ok {s : State} (h : s.err = false) (e : ErrorKind) (w : Word) : raise e w s = .next (s.recordError e w) := by
  simp [raise, h]

theorem raise_of_err {s : State} (h : s.err = true) (e : ErrorKind) (w : Word) : raise e w s = .next s := by
  simp [raise, h]

theorem unlessError_of_ok {s : State} (h : s.err = false) (run : Host.Outcome State Fault Refusal) : unlessError s run = run := by
  simp [unlessError, h]

theorem unlessError_of_err {s : State} (h : s.err = true) (run : Host.Outcome State Fault Refusal) : unlessError s run = .next s := by
  simp [unlessError, h]

/-! ## SYM -/

theorem symbolEmits_iff (s : State) : s.symbolEmits = true ↔ 3 ≤ s.nbits.toNat := by
  simp only [State.symbolEmits, decide_eq_true_eq]
  omega

theorem execSym_of_err {s : State} (h : s.err = true) (ch : Byte) : execSym ch s = .next s := unlessError_of_err h _

theorem execSym_ws {s : State} {ch : Byte} (h : s.err = false) (hc : charClass ch = .ws) : execSym ch s = .next s.noteWhitespace := by
  rw [execSym, unlessError_of_ok h, hc]

theorem execSym_invalid {s : State} {ch : Byte} (h : s.err = false) (hc : charClass ch = .invalid) :
    execSym ch s = .next (s.recordError .invalidSecretEncoding (encode (.sym ch))) := by
  rw [execSym, unlessError_of_ok h, hc]
  exact raise_of_ok h _ _

theorem execSym_pendws {s : State} {ch : Byte} {v : BitVec 5} (h : s.err = false) (hc : charClass ch = .symbol v) (hp : s.pendws = true) :
    execSym ch s = .next (s.recordError .invalidSecretEncoding (encode (.sym ch))) := by
  rw [execSym, unlessError_of_ok h, hc]
  simp only [hp, if_true]
  exact raise_of_ok h _ _

theorem execSym_overflow {s : State} {ch : Byte} {v : BitVec 5} (h : s.err = false) (hc : charClass ch = .symbol v)
    (hp : s.pendws = false) (hn : 3 ≤ s.nbits.toNat) (hk : s.keylen.toNat = Config.keyCap) :
    execSym ch s = .next (s.recordError .keyOverflow (encode (.sym ch))) := by
  rw [execSym, unlessError_of_ok h, hc]
  simp only [hp, (symbolEmits_iff s).2 hn, hk, and_self, if_true]
  exact raise_of_ok h _ _

theorem execSym_hold {s : State} {ch : Byte} {v : BitVec 5} (h : s.err = false) (hc : charClass ch = .symbol v)
    (hp : s.pendws = false) (hn : s.nbits.toNat < 3) : execSym ch s = .next (s.holdSymbol v) := by
  have he : s.symbolEmits = false := by simpa using mt (symbolEmits_iff s).1 (by omega)
  rw [execSym, unlessError_of_ok h, hc]
  simp [hp, he, acceptSymbol]

theorem execSym_emit {s : State} {ch : Byte} {v : BitVec 5} (h : s.err = false) (hc : charClass ch = .symbol v)
    (hp : s.pendws = false) (hn : 3 ≤ s.nbits.toNat) (hk : s.keylen.toNat < Config.keyCap) :
    execSym ch s = .next (s.emitSymbol v) := by
  rw [execSym, unlessError_of_ok h, hc]
  simp [hp, (symbolEmits_iff s).2 hn, hk, hk.ne, acceptSymbol]

theorem execSym_beyond {s : State} {ch : Byte} {v : BitVec 5} (h : s.err = false) (hc : charClass ch = .symbol v)
    (hp : s.pendws = false) (hn : 3 ≤ s.nbits.toNat) (hk : Config.keyCap < s.keylen.toNat) :
    execSym ch s = .fault .keyIndexOutOfRange := by
  rw [execSym, unlessError_of_ok h, hc]
  simp [hp, (symbolEmits_iff s).2 hn, hk.ne', hk.not_gt, acceptSymbol]

/-- Everything a SYM can do: one of these seven cases holds, each with its condition. -/
theorem execSym_cases (ch : Byte) (s : State) :
    (s.err = true ∧ execSym ch s = .next s) ∨
    (s.err = false ∧ charClass ch = .ws ∧ execSym ch s = .next s.noteWhitespace) ∨
    (s.err = false ∧ (charClass ch = .invalid ∨ (s.pendws = true ∧ ∃ v, charClass ch = .symbol v)) ∧
      execSym ch s = .next (s.recordError .invalidSecretEncoding (encode (.sym ch)))) ∨
    (∃ v, s.err = false ∧ charClass ch = .symbol v ∧ s.pendws = false ∧ 3 ≤ s.nbits.toNat ∧ s.keylen.toNat = Config.keyCap ∧
      execSym ch s = .next (s.recordError .keyOverflow (encode (.sym ch)))) ∨
    (∃ v, s.err = false ∧ charClass ch = .symbol v ∧ s.pendws = false ∧ s.nbits.toNat < 3 ∧ execSym ch s = .next (s.holdSymbol v)) ∨
    (∃ v, s.err = false ∧ charClass ch = .symbol v ∧ s.pendws = false ∧ 3 ≤ s.nbits.toNat ∧ s.keylen.toNat < Config.keyCap ∧
      execSym ch s = .next (s.emitSymbol v)) ∨
    (∃ v, s.err = false ∧ charClass ch = .symbol v ∧ s.pendws = false ∧ 3 ≤ s.nbits.toNat ∧ Config.keyCap < s.keylen.toNat ∧
      execSym ch s = .fault .keyIndexOutOfRange) := by
  cases he : s.err
  · cases hc : charClass ch with
    | ws => exact .inr (.inl ⟨rfl, rfl, execSym_ws he hc⟩)
    | invalid => exact .inr (.inr (.inl ⟨rfl, .inl rfl, execSym_invalid he hc⟩))
    | symbol v =>
      cases hp : s.pendws
      · rcases Nat.lt_or_ge s.nbits.toNat 3 with hn | hn
        · exact .inr (.inr (.inr (.inr (.inl ⟨v, rfl, rfl, rfl, hn, execSym_hold he hc hp hn⟩))))
        · rcases Nat.lt_trichotomy s.keylen.toNat Config.keyCap with hk | hk | hk
          · exact .inr (.inr (.inr (.inr (.inr (.inl ⟨v, rfl, rfl, rfl, hn, hk, execSym_emit he hc hp hn hk⟩)))))
          · exact .inr (.inr (.inr (.inl ⟨v, rfl, rfl, rfl, hn, hk, execSym_overflow he hc hp hn hk⟩)))
          · exact .inr (.inr (.inr (.inr (.inr (.inr ⟨v, rfl, rfl, rfl, hn, hk, execSym_beyond he hc hp hn hk⟩)))))
      · exact .inr (.inr (.inl ⟨rfl, .inr ⟨rfl, v, rfl⟩, execSym_pendws he hc hp⟩))
  · exact .inl ⟨rfl, execSym_of_err he ch⟩

/-! ## LDT and GEN -/

/-- Everything an LDT can do. -/
theorem execLdt_cases (q : BitVec 2) (imm : BitVec 16) (s : State) :
    (s.err = true ∧ execLdt q imm s = .next s) ∨ (s.err = false ∧ execLdt q imm s = .next (s.loadQuarter q imm)) := by
  cases he : s.err
  · exact .inr ⟨rfl, unlessError_of_ok he _⟩
  · exact .inl ⟨rfl, unlessError_of_err he _⟩

/-- Everything the Accept step of a GEN can do. -/
theorem execGen_cases (n : Bool) (s : State) :
    (s.err = true ∧ execGen n s = .next s) ∨
    (s.err = false ∧ s.tmask = 0b1111#4 ∧ execGen n s = .next (s.startGen n)) ∨
    (s.err = false ∧ s.tmask ≠ 0b1111#4 ∧ execGen n s = .next (s.recordError .clockUnavailable (encode (.gen n)))) := by
  cases he : s.err
  · by_cases ht : s.tmask = 0b1111#4
    · exact .inr (.inl ⟨rfl, ht, by rw [execGen, unlessError_of_ok he]; simp [timeAvailable, ht]⟩)
    · exact .inr (.inr ⟨rfl, ht, by rw [execGen, unlessError_of_ok he]; simp [timeAvailable, ht, raise_of_ok he]⟩)
  · exact .inl ⟨rfl, unlessError_of_err he _⟩

/-- The completion of a GEN whose key lies in the buffer. -/
theorem completeGen_of_le {s : State} (h : s.keylen.toNat ≤ Config.keyCap) :
    completeGen s = .next (s.writeResults s.genCounter s.genDigest) := by
  simp [completeGen, h]

/-- If a completion answers a next state, it has written the results. -/
theorem completeGen_next {s t : State} (h : completeGen s = .next t) :
    s.keylen.toNat ≤ Config.keyCap ∧ t = s.writeResults s.genCounter s.genDigest := by
  unfold completeGen at h
  split at h
  · exact ⟨‹_›, (Host.Outcome.next.inj h).symm⟩
  · cases h

/-! ## The step -/

theorem cmdReady_of_word {s : State} {w : Word} {rest : List HostAction} (h : s.host = .word w :: rest) : s.cmdReady = !s.busy := by
  simp [State.cmdReady, State.rstAsserted, h]

theorem acceptWord_of_decode {w : Word} {i : Instr} (h : decode w = some i) (s : State) : acceptWord w s = exec i s := by
  simp [acceptWord, h]

theorem acceptWord_of_none {w : Word} (h : decode w = none) (s : State) : acceptWord w s = raise .illegalCommand w s := by
  simp [acceptWord, h]

/-- Everything a step can be: Complete, Accept, Read, Reset, a waiting host going on, or an idle machine. -/
theorem step_cases (s : State) :
    (s.completesNext = true ∧ step s = completeGen s) ∨
    (∃ w rest, s.host = .word w :: rest ∧ s.busy = false ∧ s.acceptsNext = some w ∧ step s = acceptWord w s.advance) ∨
    (∃ i rest, s.host = .rd i :: rest ∧ step s = .next (s.advance.readPort i)) ∨
    (∃ rest, s.host = .rst :: rest ∧ step s = .next s.advance.clear) ∨
    (∃ rest, s.host = .wait :: rest ∧ s.busy = false ∧ step s = .next s.advance) ∨
    (s.host = [] ∧ s.busy = false ∧ step s = .next s) := by
  unfold step agentStep
  match hh : s.host with
  | [] =>
    cases hb : s.busy
    · simp
    · simp [State.completesNext, hh, hb]
  | .word w :: rest =>
    cases hb : s.busy
    · refine .inr (.inl ⟨w, rest, rfl, rfl, by simp [State.acceptsNext, hh, hb], ?_⟩)
      simp [cmdReady_of_word hh, hb]
    · refine .inl ⟨by simp [State.completesNext, hh, hb], ?_⟩
      simp [cmdReady_of_word hh, hb]
  | .wait :: rest =>
    cases hb : s.busy
    · simp
    · simp [State.completesNext, hh, hb]
  | .rd i :: rest => exact .inr (.inr (.inl ⟨i, rest, rfl, rfl⟩))
  | .rst :: rest => exact .inr (.inr (.inr (.inl ⟨rest, rfl, rfl⟩)))

/-- A step that completes a GEN. -/
theorem step_of_completesNext {s : State} (h : s.completesNext = true) : step s = completeGen s := by
  rcases step_cases s with ⟨-, hs⟩ | ⟨w, rest, hh, hb, -⟩ | ⟨i, rest, hh, -⟩ | ⟨rest, hh, -⟩ | ⟨rest, hh, hb, -⟩ | ⟨hh, hb, -⟩
  · exact hs
  all_goals simp_all [State.completesNext]

end Sys2Proof.Machine
end

