-- ==== Sys2Proof/Laws/Bits.lean ====
section
/-! SUPPORT. The bit-level operations as arithmetic: bytes of words, the decoder's bit buffer, LDT's quarters, the digits, and
the hash functions' blocks, rounds and lengths. -/

namespace Sys2Proof.Machine

theorem append_toNat {m n : Nat} (x : BitVec m) (y : BitVec n) : (x ++ y).toNat = x.toNat * 2 ^ n + y.toNat := by
  rw [BitVec.toNat_append, ← Nat.shiftLeft_add_eq_or_of_lt y.isLt, Nat.shiftLeft_eq]

theorem ofBool_toNat (b : Bool) : (BitVec.ofBool b).toNat = b.toNat := by cases b <;> rfl

theorem ofBe32_toNat (b0 b1 b2 b3 : Byte) :
    (ofBe32 b0 b1 b2 b3).toNat = b0.toNat * 2 ^ 24 + b1.toNat * 2 ^ 16 + b2.toNat * 2 ^ 8 + b3.toNat := by
  simp only [ofBe32, append_toNat]
  omega

theorem digestByte_of_lt (d : Vector Byte 20) {k : Nat} (h : k < 20) : digestByte d k = d[k] := by
  rw [digestByte, List.getD_eq_getElem?_getD]
  simp [h]

/-- Byte `k` of a word, the most significant first (R9). -/
theorem be32_getD_toNat (w : Word) {k : Nat} (hk : k < 4) : ((be32 w).getD k 0).toNat = w.toNat / 2 ^ (24 - 8 * k) % 256 := by
  match k, hk with
  | 0, _ => exact (BitVec.extractLsb'_toNat ..).trans (by rw [Nat.shiftRight_eq_div_pow])
  | 1, _ => exact (BitVec.extractLsb'_toNat ..).trans (by rw [Nat.shiftRight_eq_div_pow])
  | 2, _ => exact (BitVec.extractLsb'_toNat ..).trans (by rw [Nat.shiftRight_eq_div_pow])
  | 3, _ => exact (BitVec.extractLsb'_toNat ..).trans (by rw [Nat.shiftRight_eq_div_pow])

@[simp] theorem be32_length (w : Word) : (be32 w).length = 4 := rfl

@[simp] theorem be64_length (x : BitVec 64) : (be64 x).length = 8 := rfl

/-- The bytes of a 64-bit value are those of its two halves, the upper half first (R9, R53). -/
theorem be64_getD (x : BitVec 64) {i : Nat} (hi : i < 8) :
    (be64 x).getD i 0 = if i < 4 then (be32 (x.extractLsb' 32 32)).getD i 0 else (be32 (x.extractLsb' 0 32)).getD (i - 4) 0 := by
  interval_cases i <;> rfl

/-! ## The decoder's bit buffer -/

/-- A symbol shifted into a buffer of `n <= 7` significant bits (R113, R114). -/
theorem pushBits_toNat {buf : BitVec 12} {n : Nat} (h : buf.toNat < 2 ^ n) (hn : n ≤ 7) (v : BitVec 5) :
    (pushBits buf v).toNat = buf.toNat * 2 ^ 5 + v.toNat ∧ (pushBits buf v).toNat < 2 ^ (n + 5) := by
  have hv := v.isLt
  have h7 : buf.toNat < 2 ^ 7 := lt_of_lt_of_le h (Nat.pow_le_pow_right (by omega) hn)
  have e : (pushBits buf v).toNat = buf.toNat * 2 ^ 5 + v.toNat := by
    rw [pushBits, BitVec.toNat_or, BitVec.toNat_shiftLeft, BitVec.toNat_setWidth, Nat.mod_eq_of_lt (by omega), Nat.shiftLeft_eq,
      Nat.mod_eq_of_lt (by omega), ← Nat.shiftLeft_eq, ← Nat.shiftLeft_add_eq_or_of_lt hv]
  refine ⟨e, ?_⟩
  rw [e, pow_add]
  have : buf.toNat + 1 ≤ 2 ^ n := h
  nlinarith

/-- Keeping the low `n` bits is the remainder by `2^n` (00_scope.md rule R8). -/
theorem keepBits_toNat (b : BitVec 12) {n : Nat} (hn : n ≤ 12) : (keepBits b n).toNat = b.toNat % 2 ^ n := by
  have : (BitVec.allOnes 12 >>> (12 - n)).toNat = 2 ^ n - 1 := by
    rw [BitVec.toNat_ushiftRight, BitVec.toNat_allOnes, Nat.shiftRight_eq_div_pow]
    interval_cases n <;> rfl
  rw [keepBits, BitVec.toNat_and, this, Nat.and_two_pow_sub_one_eq_mod]

/-- What each class of characters means for the source's whole-string functions (R110, R111, R112). -/
theorem charClass_spec (c : Byte) :
    (∀ v, charClass c = .symbol v →
      alphabet.contains (upperByte c) = true ∧ alphabetValue (upperByte c) = v.toNat ∧ isWhitespace c = false) ∧
    (charClass c = .invalid → alphabet.contains (upperByte c) = false ∧ isWhitespace c = false) ∧
    (charClass c = .ws ↔ isWhitespace c = true) ∧
    (isWhitespace c = true → alphabet.contains (upperByte c) = false) := by
  revert c
  decide +kernel

/-! ## LDT's quarters -/

/-- Every bit of TIME after a quarter is inserted (R73). -/
theorem insertQuarter_getLsbD (t : BitVec 64) (q : BitVec 2) (imm : BitVec 16) {i : Nat} (hi : i < 64) :
    (insertQuarter t q imm).getLsbD i = if i / 16 = q.toNat then imm.getLsbD (i % 16) else t.getLsbD i := by
  have hq := q.isLt
  have e1 : (0xFFFF#16).getLsbD (i - 16 * q.toNat) = decide (i - 16 * q.toNat < 16) := by
    rw [show 0xFFFF#16 = BitVec.allOnes 16 by decide, BitVec.getLsbD_allOnes]
  rw [insertQuarter, BitVec.getLsbD_or, BitVec.getLsbD_and, BitVec.getLsbD_not, BitVec.getLsbD_shiftLeft, BitVec.getLsbD_shiftLeft,
    BitVec.getLsbD_setWidth, BitVec.getLsbD_setWidth, e1]
  by_cases h1 : i < 16 * q.toNat
  · simp [h1, show ¬ i / 16 = q.toNat by omega, hi]
  · by_cases h2 : i - 16 * q.toNat < 16
    · simp [h1, h2, hi, show i / 16 = q.toNat by omega, show i % 16 = i - 16 * q.toNat by omega, show i - 16 * q.toNat < 64 by omega]
    · rw [BitVec.getLsbD_of_ge imm _ (by omega)]
      simp [h1, h2, hi, show ¬ i / 16 = q.toNat by omega]

/-! ## Digits and digests -/

theorem digitChar_toNat (c : BitVec 20) (j : Nat) : (digitChar c j).toNat = 0x30 + c.toNat / 10 ^ (5 - j) % 10 := by
  rw [digitChar, BitVec.toNat_ofNat]
  omega

theorem codeString_getElem (c : BitVec 20) (j : Fin 6) : (codeString c)[j] = digitChar c j.val := by
  match j with
  | 0 => rfl
  | 1 => rfl
  | 2 => rfl
  | 3 => rfl
  | 4 => rfl
  | 5 => rfl

/-! ## The hash functions -/

/-- The blocks of a byte string, each by its place (R161). -/
theorem sha1Blocks_eq_map (n : Nat) : ∀ p : List Byte, sha1Blocks n p = (List.range n).map fun i => (p.drop (64 * i)).take 64 := by
  induction n with
  | zero => intro p; rfl
  | succ n ih =>
    intro p
    rw [List.range_succ_eq_map, List.map_cons, List.map_map, sha1Blocks, ih]
    simp only [Function.comp_def, List.drop_drop, Nat.mul_succ, Nat.mul_zero, List.drop_zero, Nat.add_comm]

/-- The last round of a run of rounds (R165). -/
theorem sha1Rounds_concat (ws : List Word) (w : Word) :
    ∀ (t : Nat) (v : Sha1Words), sha1Rounds t (ws ++ [w]) v = sha1Round (t + ws.length) w (sha1Rounds t ws v) := by
  induction ws with
  | nil => intro t v; rfl
  | cons w' ws ih =>
    intro t v
    rw [List.cons_append, sha1Rounds, ih, sha1Rounds, List.length_cons, Nat.add_assoc, Nat.add_comm 1]

@[simp] theorem sha1_length (x : List Byte) : (sha1 x).length = 20 := rfl

@[simp] theorem hmacSha1_length (k m : List Byte) : (hmacSha1 k m).length = 20 := rfl

/-- A string of 20 bytes is the DIGEST it gives. -/
theorem digestOf_toList {h : List Byte} (hl : h.length = 20) : (digestOf h).toList = h := by
  obtain ⟨a0, h, rfl⟩ := List.exists_cons_of_length_eq_add_one hl
  match h, hl with
  | [a1, a2, a3, a4, a5, a6, a7, a8, a9, a10, a11, a12, a13, a14, a15, a16, a17, a18, a19], _ => rfl

end Sys2Proof.Machine
end

