-- ==== Sys2Proof/Laws/Invariant.lean ====
section
/-! SUPPORT. The invariants as a check that evaluates, and that they do not look at the host agent's side. -/

namespace Sys2Proof.Machine

/-- The clauses of `Inv` as one check. -/
def invCheck (s : State) : Bool :=
  decide (s.buf.toNat < 2 ^ s.nbits.toNat) && decide (s.keylen.toNat ≤ Config.keyCap) && decide (Memory.wf s.key) &&
  decide (∀ c ∈ s.key, c.1 < s.keylen.toNat) &&
  decide (s.started = false → s.keylen = 0#16 ∧ s.nbits = 0#3 ∧ s.pendws = false) &&
  decide ((8 * s.keylen.toNat + s.nbits.toNat) % 5 = 0) && decide (s.err = false ↔ s.ecode = 0#4) && decide (s.ecode.toNat ≤ 4) &&
  decide (s.err = false → s.errdata = 0#32) && decide (s.trunc.toNat < 2 ^ 31) && decide (s.code.toNat < Config.modulus) &&
  decide (s.busy = true → s.valid = false ∧ s.err = false ∧ s.tmask = 0b1111#4) && decide (s.pendN = true → s.busy = true) &&
  decide (s.valid = true → s.offset = truncOffset s.digest ∧ s.trunc = binaryCode s.digest ∧ s.code = codeOf s.trunc ∧
    s.codestr = codeString s.code)

/-- A state that passes the check meets the invariants. -/
theorem inv_of_invCheck {s : State} (h : invCheck s = true) : Inv s := by
  simp only [invCheck, Bool.and_eq_true, decide_eq_true_eq] at h
  obtain ⟨⟨⟨⟨⟨⟨⟨⟨⟨⟨⟨⟨⟨h1, h2⟩, h3⟩, h4⟩, h5⟩, h6⟩, h7⟩, h8⟩, h9⟩, h10⟩, h11⟩, h12⟩, h13⟩, h14⟩ := h
  exact ⟨h1, h2, h3, h4, h5, ⟨_, (Nat.mul_div_cancel' (Nat.dvd_of_mod_eq_zero h6)).symm⟩, h7, h8, h9, h10, h11, h12, h13, h14⟩

/-- The invariants speak of the elements of R22 only. -/
theorem Inv.withHost {s : State} (h : Inv s) (as : List HostAction) (rs : List (BitVec 6 × Word)) :
    Inv { s with host := as, reads := rs } :=
  ⟨h.1, h.2, h.3, h.4, h.5, h.6, h.7, h.8, h.9, h.10, h.11, h.12, h.13, h.14⟩

end Sys2Proof.Machine
end

