-- ==== Sys2Proof/Laws/PerInstr.lean ====
section
/-! SUPPORT. The law family EncodedRow, one lemma for each command: the command's word matches a row of the opcode map, and that
row's fields give the command back (30_encoding.md rules R71 and R75). -/

namespace Sys2Proof.Laws.EncodedRow

/-- The word of `i` matches a row of the opcode map, whose operand fields hold the operands of `i`. -/
def Statement (i : Instr) : Prop := ∃ o ∈ opcodeMap, o.matchesWord (encode i) = true ∧ o.instrOf (encode i) = i

theorem nop : Statement .nop := ⟨.nop, by decide, by decide, rfl⟩

theorem clr : Statement .clr := ⟨.clr, by decide, by decide, rfl⟩

theorem sym (ch : Byte) : Statement (.sym ch) := by
  have h := ch.isLt
  refine ⟨.sym, by decide, (matchesWord_sym _).2 (by rw [encode_sym_toNat]; omega), ?_⟩
  rw [Opcode.instrOf, Instr.sym.injEq, ← BitVec.toNat_inj, (instrOf_fields _).1, encode_sym_toNat]
  omega

theorem ldt (q : BitVec 2) (imm : BitVec 16) : Statement (.ldt q imm) := by
  have hq := q.isLt
  have hi := imm.isLt
  refine ⟨.ldt, by decide, (matchesWord_ldt _).2 (by rw [encode_ldt_toNat]; omega), ?_⟩
  rw [Opcode.instrOf, Instr.ldt.injEq, ← BitVec.toNat_inj, ← BitVec.toNat_inj, (instrOf_fields _).2.1, (instrOf_fields _).2.2.1,
    encode_ldt_toNat]
  omega

theorem gen (next : Bool) : Statement (.gen next) := by
  refine ⟨.gen, by decide, (matchesWord_gen _).2 (by rw [encode_gen_toNat]; cases next <;> decide), ?_⟩
  cases next <;> rfl

end Sys2Proof.Laws.EncodedRow
end

