-- ==== Sys2Proof/Laws/Runs.lean ====
section
/-! SUPPORT. Runs of several steps, and of several commands: one step at a time, and in pieces. -/

namespace Sys2Proof.Machine

theorem run_of_step {M : Host.Core} {n : Nat} {s t : M.State} (h : M.step s = .next t) : M.run (n + 1) s = M.run n t := by
  rw [Host.Core.run, h]

theorem run_of_fault {M : Host.Core} {n : Nat} {s : M.State} {r : M.Fault} (h : M.step s = .fault r) : M.run (n + 1) s = .fault r := by
  rw [Host.Core.run, h]

theorem run_of_refused {M : Host.Core} {n : Nat} {s : M.State} {r : M.Refusal} (h : M.step s = .refused r) :
    M.run (n + 1) s = .refused r := by
  rw [Host.Core.run, h]

/-- No step. -/
theorem run_zero (s : State) : Host.Core.run core 0 s = .next s := rfl

/-- A first step that answers a next state. -/
theorem run_succ {n : Nat} {s t : State} (h : step s = .next t) : Host.Core.run core (n + 1) s = Host.Core.run core n t :=
  run_of_step (M := core) h

/-- A run in two pieces. -/
theorem run_add (n m : Nat) {s t : State} (h : Host.Core.run core n s = .next t) :
    Host.Core.run core (n + m) s = Host.Core.run core m t := by
  induction n generalizing s with
  | zero =>
    cases h
    rw [Nat.zero_add]
  | succ n ih =>
    rw [Nat.add_right_comm]
    cases hs : step s with
    | next u =>
      rw [run_succ hs] at h ⊢
      exact ih h
    | fault r =>
      rw [show Host.Core.run core (n + 1) s = .fault r from run_of_fault (M := core) hs] at h
      cases h
    | refused r =>
      rw [show Host.Core.run core (n + 1) s = .refused r from run_of_refused (M := core) hs] at h
      cases h

/-- A word at a ready port. -/
theorem step_of_word {s : State} {w : Word} {rest : List HostAction} (h : s.host = .word w :: rest) (hb : s.busy = false) :
    step s = acceptWord w s.advance := by
  simp [step, agentStep, h, cmdReady_of_word h, hb]

/-- Once ERR = 1, the characters of a secret are dropped one after the other (R223). -/
theorem execAll_sym_of_err (p : List Byte) {s : State} (h : s.err = true) : execAll (p.map Instr.sym) s = .next s := by
  induction p with
  | nil => rfl
  | cons c p ih =>
    rw [List.map_cons, execAll, show exec (.sym c) s = .next s from execSym_of_err h c]
    exact ih

/-- The characters of a secret in two pieces. -/
theorem execAll_append (p q : List Instr) {s t : State} (h : execAll p s = .next t) : execAll (p ++ q) s = execAll q t := by
  induction p generalizing s with
  | nil =>
    cases h
    rfl
  | cons i p ih =>
    rw [List.cons_append, execAll]
    rw [execAll] at h
    cases hs : exec i s with
    | next u =>
      rw [hs] at h
      exact ih h
    | fault r =>
      rw [hs] at h
      cases h
    | refused r =>
      rw [hs] at h
      cases h

end Sys2Proof.Machine
end

