-- ==== Sys2Proof/Tests/Slice0.lean ====
section
/-! SUPPORT. The model's own tests: ill-formed terms, words written out from the encodings of 30_encoding.md, single steps and
digests from 95_test_vectors.md, and a witness for the hypotheses of every statement. -/

namespace Sys2Proof.Machine

/-! ## Well-formedness: an ill-formed term for each check (30_encoding.md rules R78 to R80) -/

theorem test_sym_operand_out_of_range : (Asm.sym 256).wellFormed = false := by decide
theorem test_ldt_quarter_out_of_range : (Asm.ldt 4 0).wellFormed = false := by decide
theorem test_ldt_immediate_out_of_range : (Asm.ldt 0 65536).wellFormed = false := by decide
theorem test_secret_byte_out_of_range : (Asm.secret [0x41, 256]).wellFormed = false := by decide
theorem test_ldt64_time_out_of_range : (Asm.ldt64 (2 ^ 64)).wellFormed = false := by decide
theorem test_totp_byte_out_of_range : (Asm.totp [300] 59 false).wellFormed = false := by decide
theorem test_totp_time_out_of_range : (Asm.totp [] (2 ^ 64) true).wellFormed = false := by decide
theorem test_raw_word_out_of_range : (Asm.word (2 ^ 32)).wellFormed = false := by decide
theorem test_operands_at_their_limits :
    (Asm.sym 255).wellFormed = true ∧ (Asm.ldt 3 65535).wellFormed = true ∧ (Asm.ldt64 (2 ^ 64 - 1)).wellFormed = true ∧
    (Asm.word (2 ^ 32 - 1)).wellFormed = true := by decide

/-- The types of the operands leave no ill-formed command. -/
theorem test_every_instr_is_wellFormed (i : Instr) : i.wellFormed = true := by
  cases i with
  | nop => rfl
  | clr => rfl
  | sym ch => exact decide_eq_true ch.isLt
  | ldt q imm => exact Bool.and_eq_true_iff.2 ⟨decide_eq_true q.isLt, decide_eq_true imm.isLt⟩
  | gen next => rfl

/-! ## Decoding: words written bit by bit from R71's formats -/

theorem test_decode_nop : decode 0b00000000000000000000000000000000#32 = some .nop := by decide
theorem test_decode_clr : decode 0b00000001000000000000000000000000#32 = some .clr := by decide
theorem test_decode_sym_M : decode 0b00000010000000000000000001001101#32 = some (.sym 0b01001101#8) := by decide
theorem test_decode_ldt_q2 : decode 0b00000011000000101000000000000101#32 = some (.ldt 0b10#2 0b1000000000000101#16) := by decide
theorem test_decode_gen : decode 0b00000100000000000000000000000000#32 = some (.gen false) := by decide
theorem test_decode_gen_next : decode 0b00000100000000000000000000000001#32 = some (.gen true) := by decide
theorem test_decode_reserved_bits :
    decode 0b00000001000000000000000000000001#32 = none ∧ decode 0b00000010000000000000000100000000#32 = none ∧
    decode 0b00000011000001000000000000000000#32 = none ∧ decode 0b00000100000000000000000000000010#32 = none ∧
    decode 0xFFFFFFFF#32 = none := by decide
theorem test_decodeTableWord :
    decodeTableWord 32 0x0303FFFF = some (.ldt 3#2 0xFFFF#16) ∧ decodeTableWord 32 0x05000000 = none := by decide
/-! ## The assembler's lines (R78 to R80), letters to host actions -/

/-- `SYM 'M' ; comment` is the word of `SYM 0x4D`; `SYM '\'` is that of the one character whose byte is 0x5C (R78, log entry 12). -/
theorem test_line_sym :
    assembleLine ['S', 'Y', 'M', ' ', '\'', 'M', '\'', ' ', ';', ' ', 'x'] = some [.word 0x0200004D#32] ∧
    assembleLine ['S', 'Y', 'M', ' ', '7', '7'] = some [.word 0x0200004D#32] ∧
    assembleLine ['S', 'Y', 'M', ' ', '\'', '\\', '\''] = some [.word 0x0200005C#32] := by decide

/-- `LDT 1, 0xABCD`; `LDT 4, 0` is an assembly error. -/
theorem test_line_ldt :
    assembleLine ['L', 'D', 'T', ' ', '1', ',', ' ', '0', 'x', 'A', 'B', 'C', 'D'] = some [.word 0x0301ABCD#32] ∧
    assembleLine ['L', 'D', 'T', ' ', '4', ',', ' ', '0'] = none := by decide

/-- `GEN next`, `WAIT`, `RD CODE`, `.word 0x05000000`. -/
theorem test_line_others :
    assembleLine ['G', 'E', 'N', ' ', 'n', 'e', 'x', 't'] = some [.word 0x04000001#32] ∧
    assembleLine ['W', 'A', 'I', 'T'] = some [.wait] ∧
    assembleLine ['R', 'D', ' ', 'C', 'O', 'D', 'E'] = some [.rd 13#6] ∧
    assembleLine ['.', 'w', 'o', 'r', 'd', ' ', '0', 'x', '0', '5', '0', '0', '0', '0', '0', '0'] = some [.word 0x05000000#32] := by
  decide

/-- `TOTP "A\n", 59`: CLR, two SYMs, the words `0300003B 03010000 03020000 03030000` of LDT64 59 (program P1), GEN. -/
theorem test_line_totp :
    assembleLine ['T', 'O', 'T', 'P', ' ', Char.ofNat 0x22, 'A', '\\', 'n', Char.ofNat 0x22, ',', ' ', '5', '9'] =
      some [.word 0x01000000#32, .word 0x02000041#32, .word 0x0200000A#32, .word 0x0300003B#32, .word 0x03010000#32,
        .word 0x03020000#32, .word 0x03030000#32, .word 0x04000000#32] := by decide

/-! ## States for the tests and the witnesses -/

/-- A decoder with `keylen` bytes emitted and `nbits` bits in the buffer, all of them zero: what a secret of `A`s leaves. -/
def decoderState (keylen nbits : Nat) : State :=
  { State.reset with started := true, keylen := BitVec.ofNat 16 keylen, nbits := BitVec.ofNat 3 nbits }

/-- The RFC key `12345678901234567890` of 95_test_vectors.md. -/
def rfcKey : Memory :=
  [(0, 0x31), (1, 0x32), (2, 0x33), (3, 0x34), (4, 0x35), (5, 0x36), (6, 0x37), (7, 0x38), (8, 0x39), (9, 0x30),
   (10, 0x31), (11, 0x32), (12, 0x33), (13, 0x34), (14, 0x35), (15, 0x36), (16, 0x37), (17, 0x38), (18, 0x39), (19, 0x30)]

/-- The RFC key and a whole TIME are loaded. -/
def timedState (time : Nat) : State :=
  { decoderState 20 0 with key := rfcKey, time := BitVec.ofNat 64 time, tmask := 0b1111#4 }

/-- A GEN is in flight under the RFC key. -/
def busyState (time : Nat) (n : Bool) : State := { timedState time with busy := true, pendN := n }

/-- The result of a step or a command, the reset state where there is none. -/
def stateOf : Host.Outcome State Fault Refusal → State
  | .next s => s
  | .fault _ => State.reset
  | .refused _ => State.reset

/-- A word placed by `withFetchWord` runs as the first command after reset. -/
theorem test_withFetchWord_runs_the_word :
    let t := stateOf (step (State.reset.withFetchWord 32 0x0200004D))
    t.nbits = 5#3 ∧ t.buf = 0b01100#12 ∧ t.started = true := by decide

/-! ## Single commands, from 95_test_vectors.md and the rules' worked examples -/

/-- R113's example: `SYM 'M'` then `SYM 'y'` emits 0x66 and leaves STATUS 0x00020100. -/
theorem test_sym_emits :
    let t := stateOf (execSym 0x79#8 (stateOf (execSym 0x4D#8 State.reset)))
    Memory.read t.key 0 = 0x66#8 ∧ statusWord t = 0x00020100#32 := by decide

/-- Section 3.1: '=' raises InvalidSecretEncoding, STATUS 0x00000014, ERRDATA 0x0200003D. Section 3.3: the 207th `A` overflows,
STATUS 0x00060134. -/
theorem test_sym_raises :
    let t := stateOf (execSym 0x3D#8 State.reset)
    statusWord t = 0x00000014#32 ∧ t.errdata = 0x0200003D#32 ∧
      statusWord (stateOf (execSym 0x41#8 (decoderState 128 6))) = 0x00060134#32 := by decide

/-- Section 4.1: `LDT 3, 0xFFFF`. -/
theorem test_ldt_high_quarter :
    let t := stateOf (execLdt 3#2 0xFFFF#16 State.reset)
    statusWord t = 0x00008000#32 ∧ t.time = 0xFFFF000000000000#64 := by decide

/-- V20: GEN without a time, STATUS 0x00000024, ERRDATA 0x04000000. R190's example: GEN is accepted, STATUS 0x0000F101. -/
theorem test_gen_accepts :
    let t := stateOf (execGen false State.reset)
    statusWord t = 0x00000024#32 ∧ t.errdata = 0x04000000#32 ∧ statusWord (stateOf (execGen false (timedState 59))) = 0x0000F101#32 := by
  decide

/-- V4: CLR after an error. -/
theorem test_clr_clears_the_error : statusWord (stateOf (execClr (stateOf (execSym 0x21#8 (decoderState 0 5))))) = 0#32 := by decide

/-- V7: NOP after an error. -/
theorem test_nop_keeps_the_error : statusWord (stateOf (execNop (stateOf (acceptWord 0x00000001#32 State.reset)))) = 0x00000044#32 := by
  decide

/-- R251: PARAM and ID. -/
theorem test_param_and_id : regRead State.reset 18#6 = 0x061E0080#32 ∧ regRead State.reset 17#6 = 0x4F545031#32 := by decide

/-! ## SHA-1, HMAC and GEN's completion, from 95_test_vectors.md sections 5 and 6 -/

/-- Section 5.1: SHA1("abc"). -/
theorem test_sha1_abc :
    sha1 [0x61, 0x62, 0x63] = be32 0xA9993E36 ++ be32 0x4706816A ++ be32 0xBA3E2571 ++ be32 0x7850C26C ++ be32 0x9CD0D89D := by
  decide +kernel

/-- Section 5.3: the 70-byte key's hash `610e973d…`, and the digest for C = 1. -/
theorem test_hmac_long_key :
    hmacSha1 (List.replicate 7 [0x31#8, 0x32, 0x33, 0x34, 0x35, 0x36, 0x37, 0x38, 0x39, 0x30]).flatten (be64 1) =
      be32 0xA9F581C5 ++ be32 0x10F7179F ++ be32 0x75247767 ++ be32 0xBB3F0695 ++ be32 0xD1EB3096 := by
  decide +kernel

/-- Program P1: CODE 287082, CODE_STR "287082". Program P3a: GEN next at 1111111109, TRUNC 0x18ADE8A7, OFFSET 13,
C = 0x023523ED. -/
theorem test_completion :
    let t := stateOf (completeGen (busyState 59 false))
    let u := stateOf (completeGen (busyState 1111111109 true))
    regRead t 13#6 = 0x0004616A#32 ∧ regRead t 14#6 = 0x32383730#32 ∧ regRead t 15#6 = 0x38320000#32 ∧
      regRead t 0#6 = 0x0000F102#32 ∧ regRead t 10#6 = 0x7A2D33AB#32 ∧
      regRead u 11#6 = 0x18ADE8A7#32 ∧ regRead u 12#6 = 13#32 ∧ regRead u 4#6 = 0x023523ED#32 := by
  decide +kernel

/-- Section 6.3, RFC 4226's example of truncation alone: TRUNC 0x50EF7F19, code 872921. -/
theorem test_truncation_alone :
    let d : Vector Byte 20 := #v[0x1f, 0x86, 0x98, 0x69, 0x0e, 0x02, 0xca, 0x16, 0x61, 0x85, 0x50, 0xef, 0x7f, 0x19, 0xda, 0x8e, 0x94, 0x5b, 0x55, 0x5a]
    binaryCode d = 0x50EF7F19#32 ∧ codeOf (binaryCode d) = 872921#20 := by decide

/-- E5: code 42 is rendered "000042". -/
theorem test_code_42 : codeString 42#20 = #v[0x30, 0x30, 0x30, 0x30, 0x34, 0x32] := by decide

/-- Section 3.2: "mzxw6" decodes to "foo"; edge whitespace is trimmed. -/
theorem test_decode_secret :
    decodeSecret (normalizeSecret [0x20, 0x6D, 0x7A, 0x78, 0x77, 0x36, 0x0A]) = [0x66#8, 0x6F, 0x6F] ∧
    validSecret [0x4D, 0x5A, 0x20, 0x58] = false := by decide

/-! ## Witnesses: states and operands that meet the hypotheses of the statements -/

theorem witness_DecodeOfEncode : (Instr.ldt 3#2 0xFFFF#16).wellFormed = true := by decide

theorem witness_EncodeOfDecode : decode 0x0303FFFF#32 = some (.ldt 3#2 0xFFFF#16) := by decide

theorem witness_FieldsAtTheirPlaces :
    decode 0#32 = some .nop ∧ decode 0x01000000#32 = some .clr ∧ decode 0x020000FF#32 = some (.sym 0xFF#8) ∧
    decode 0x03030000#32 = some (.ldt 3#2 0#16) ∧ decode 0x04000001#32 = some (.gen true) ∧ illegalWord 0x03FC0000#32 := by
  refine ⟨by decide, by decide, by decide, by decide, by decide, ?_⟩
  unfold illegalWord
  decide

/-- Illegal words at the edges of R76's ranges, presented with and without an error recorded. -/
theorem witness_IllegalWordsAreRecorded :
    (illegalWord 0x05000000#32 ∧ illegalWord 0xFFFFFFFF#32 ∧ illegalWord 0x00000001#32 ∧ illegalWord 0x01800000#32 ∧
      illegalWord 0x02000100#32 ∧ illegalWord 0x03040000#32 ∧ illegalWord 0x04000002#32) ∧
    ∀ e : Bool, ({ State.reset with host := [.word 0x05000000#32], err := e } : State).busy = false ∧
      ({ State.reset with host := [.word 0x05000000#32], err := e } : State).host = .word 0x05000000#32 :: [] := by
  unfold illegalWord
  refine ⟨⟨?_, ?_, ?_, ?_, ?_, ?_, ?_⟩, fun e => ⟨rfl, rfl⟩⟩ <;> decide

theorem witness_StepRunsDecodedCommand :
    let s : State := { State.reset with host := [.word 0x0200004D#32, .wait] }
    s.host = .word 0x0200004D#32 :: [.wait] ∧ s.busy = false ∧ decode 0x0200004D#32 = some (.sym 0x4D#8) := by decide

theorem witness_BusyPortHoldsTheWord :
    let s : State := { busyState 59 false with host := [.word 0x01000000#32] }
    let s' : State := { busyState 59 false with host := [.wait] }
    s.busy = true ∧ s.host = .word 0x01000000#32 :: [] ∧ s'.busy = true ∧ s'.host = .wait :: [] := by decide

/-- The two clauses on `cmd_ready`: ready, busy, and with `rst` asserted. -/
theorem witness_cmdReady :
    State.reset.cmdReady = true ∧ (busyState 59 false).cmdReady = false ∧ ({ State.reset with host := [.rst] } : State).cmdReady = false := by
  decide

theorem witness_IdleChangesNothing :
    State.reset.busy = false ∧ State.reset.host = [] ∧ ({ State.reset with host := [.wait] } : State).host = .wait :: [] := by decide

theorem witness_RegisterMapReads :
    ({ State.reset with host := [.rd 63#6] } : State).host = .rd 63#6 :: [] ∧ 19 ≤ (19#6).toNat ∧ 19 ≤ (63#6).toNat := by decide

theorem witness_ResetStepRestoresReset : ({ busyState 59 true with host := [.rst] } : State).host = .rst :: [] := by decide

theorem witness_NopChangesNothing :
    (0x00000001#32).toNat / 2 ^ 24 = 0 ∧ 0x00000001#32 ≠ 0#32 ∧ (0x00FFFFFF#32).toNat / 2 ^ 24 = 0 ∧ 0x00FFFFFF#32 ≠ 0#32 := by decide

theorem witness_ClrRestoresReset :
    let s : State := { busyState 59 false with host := [.word (encode .clr)] }
    let e : State := { State.reset with err := true, ecode := 1#4 }
    s.host = .word (encode .clr) :: [] ∧ s.busy = true ∧ Instr.nop ≠ .clr ∧ e.err = true ∧
      exec (.gen true) e = .next e := ⟨rfl, rfl, by decide, rfl, rfl⟩

/-- R111's table at both ends of every range. -/
theorem witness_CharacterClasses :
    charClass 0x41#8 = .symbol 0#5 ∧ charClass 0x5A#8 = .symbol 25#5 ∧ charClass 0x61#8 = .symbol 0#5 ∧ charClass 0x7A#8 = .symbol 25#5 ∧
    charClass 0x32#8 = .symbol 26#5 ∧ charClass 0x37#8 = .symbol 31#5 ∧
    charClass 0x09#8 = .ws ∧ charClass 0x0D#8 = .ws ∧ charClass 0x20#8 = .ws ∧
    charClass 0x00#8 = .invalid ∧ charClass 0x08#8 = .invalid ∧ charClass 0x0E#8 = .invalid ∧ charClass 0x1F#8 = .invalid ∧
    charClass 0x21#8 = .invalid ∧ charClass 0x31#8 = .invalid ∧ charClass 0x38#8 = .invalid ∧ charClass 0x40#8 = .invalid ∧
    charClass 0x5B#8 = .invalid ∧ charClass 0x60#8 = .invalid ∧ charClass 0x7B#8 = .invalid ∧ charClass 0xFF#8 = .invalid := by decide

theorem witness_SymWhitespaceIsNoted : State.reset.err = false ∧ (decoderState 0 5).err = false ∧ charClass 0x20#8 = .ws := by decide

/-- An INVALID byte, and a symbol while PENDWS = 1. -/
theorem witness_SymInvalidIsRecorded :
    State.reset.err = false ∧ charClass 0xFF#8 = .invalid ∧
    ({ decoderState 0 5 with pendws := true } : State).err = false ∧ ({ decoderState 0 5 with pendws := true } : State).pendws = true ∧
    charClass 0x41#8 = .symbol 0#5 := by decide

/-- The 207th `A`, and a buffer with NBITS at the least value that emits. -/
theorem witness_SymOverflowIsRecorded :
    (decoderState 128 6).err = false ∧ charClass 0x41#8 = .symbol 0#5 ∧ (decoderState 128 6).pendws = false ∧
    3 ≤ (decoderState 128 6).nbits.toNat ∧ 3 ≤ (decoderState 128 3).nbits.toNat ∧
    (decoderState 128 6).keylen.toNat = Config.keyCap := by decide

/-- NBITS at both ends of the range that holds: 0 and 2. -/
theorem witness_SymHoldsBits :
    (Inv State.reset.clear ∧ State.reset.clear.err = false ∧ charClass 0x37#8 = .symbol 31#5 ∧ State.reset.clear.pendws = false ∧
      State.reset.clear.nbits.toNat < 3) ∧
    (Inv (decoderState 1 2) ∧ (decoderState 1 2).err = false ∧ (decoderState 1 2).pendws = false ∧ (decoderState 1 2).nbits.toNat < 3) :=
  ⟨⟨inv_of_invCheck (by decide), by decide, by decide, by decide, by decide⟩,
   ⟨inv_of_invCheck (by decide), by decide, by decide, by decide⟩⟩

/-- NBITS at both ends of the range that emits, 3 and 7, and KEYLEN at 0 and at `KEY_CAP - 1`. -/
theorem witness_SymEmitsTopEightBits :
    (charClass 0x7A#8 = .symbol 25#5) ∧
    (Inv (decoderState 4 3) ∧ (decoderState 4 3).err = false ∧ (decoderState 4 3).pendws = false ∧ 3 ≤ (decoderState 4 3).nbits.toNat ∧
      (decoderState 4 3).keylen.toNat < Config.keyCap) ∧
    (Inv (decoderState 1 7) ∧ (decoderState 1 7).err = false ∧ (decoderState 1 7).pendws = false ∧ 3 ≤ (decoderState 1 7).nbits.toNat ∧
      (decoderState 1 7).keylen.toNat < Config.keyCap) ∧
    (Inv (decoderState 0 5) ∧ 3 ≤ (decoderState 0 5).nbits.toNat ∧ (decoderState 0 5).keylen.toNat < Config.keyCap) ∧
    (Inv (decoderState 127 4) ∧ 3 ≤ (decoderState 127 4).nbits.toNat ∧ (decoderState 127 4).keylen.toNat < Config.keyCap) :=
  ⟨by decide, ⟨inv_of_invCheck (by decide), by decide, by decide, by decide, by decide⟩,
   ⟨inv_of_invCheck (by decide), by decide, by decide, by decide, by decide⟩,
   ⟨inv_of_invCheck (by decide), by decide, by decide⟩, ⟨inv_of_invCheck (by decide), by decide, by decide⟩⟩

/-- A form that stores and a form that stores nothing, each answering a next state; the byte above KEYLEN is another index. -/
theorem witness_SymFrame :
    Memory.wf (decoderState 0 5).key ∧ symStores 0x7A#8 (decoderState 0 5) = true ∧ symStores 0x20#8 (decoderState 0 5) = false ∧
    exec (.sym 0x7A#8) (decoderState 0 5) = .next ((decoderState 0 5).emitSymbol 25#5) ∧
    exec (.sym 0x20#8) (decoderState 0 5) = .next (decoderState 0 5).noteWhitespace ∧ 1 ≠ (decoderState 0 5).keylen.toNat :=
  ⟨by decide, by decide, by decide, rfl, rfl, by decide⟩

theorem witness_LdtLoadsOneQuarter : State.reset.err = false ∧ 0 < 4 ∧ 3 < 4 := by decide

theorem witness_Ldt64LoadsTime :
    let s : State := { State.reset with host := ldt64Actions (2 ^ 64 - 1) ++ [.wait] }
    2 ^ 64 - 1 < 2 ^ 64 ∧ s.err = false ∧ s.busy = false ∧ s.host = ldt64Actions (2 ^ 64 - 1) ++ [.wait] := by decide

/-- All quarters loaded, one quarter missing, an error recorded, and a GEN in flight. -/
theorem witness_GenAcceptStarts :
    (timedState 59).err = false ∧ (timedState 59).tmask = 0b1111#4 ∧
    ({ timedState 59 with err := true, ecode := 1#4 } : State).err = true ∧ (busyState 59 false).busy = true ∧
    ({ timedState 59 with tmask := 0b0111#4 } : State).err = false ∧ ({ timedState 59 with tmask := 0b0111#4 } : State).tmask ≠ 0b1111#4 := by
  decide

/-- A host with nothing to do, a host that waits and a word at the port all let the GEN complete; bytes 0 and 7 of a counter. -/
theorem witness_GenCompletionWritesResults :
    (busyState 59 false).completesNext = true ∧ (busyState 59 false).keylen.toNat ≤ Config.keyCap ∧
    ({ busyState 59 false with host := [.wait] } : State).completesNext = true ∧
    ({ busyState 59 false with host := [.word 0#32], keylen := 128#16 } : State).completesNext = true ∧
    ({ busyState 59 false with host := [.word 0#32], keylen := 128#16 } : State).keylen.toNat ≤ Config.keyCap ∧ 0 < 8 ∧ 7 < 8 := by
  decide

/-- A read, and a reset, while a GEN is in flight. -/
theorem witness_ResultsHoldWhileBusy :
    let r : State := { busyState 59 false with host := [.rd 13#6] }
    let z : State := { busyState 59 false with host := [.rst] }
    (Inv r ∧ r.busy = true ∧ step r = .next (r.advance.readPort 13#6) ∧ r.completesNext = false ∧ r.resetsNext = false) ∧
    (Inv z ∧ z.busy = true ∧ step z = .next z.advance.clear ∧ z.resetsNext = true) ∧ 4 ≤ (4#6).toNat ∧ (15#6).toNat ≤ 15 ∧
    exec (.gen true) (timedState 59) = .next ((timedState 59).startGen true) :=
  ⟨⟨inv_of_invCheck (by decide), by decide, rfl, by decide, by decide⟩, ⟨inv_of_invCheck (by decide), by decide, rfl, by decide⟩,
   by decide, by decide, rfl⟩

/-- A GEN in flight under the RFC key takes its completion step. -/
theorem busyState_completes (time : Nat) (n : Bool) :
    step (busyState time n) = .next ((busyState time n).writeResults (busyState time n).genCounter (busyState time n).genDigest) :=
  (step_of_completesNext rfl).trans (completeGen_of_le (show (20#16).toNat ≤ Config.keyCap by decide))

/-- TIME 30 and TIME 59 under one key: the same counter 1. -/
theorem witness_ResultsDependOnKeyAndCounterOnly :
    (busyState 30 false).completesNext = true ∧ (busyState 59 false).completesNext = true ∧
    (busyState 30 false).keyBytes = (busyState 59 false).keyBytes ∧
    (busyState 30 false).time.toNat / 30 + (busyState 30 false).pendN.toNat =
      (busyState 59 false).time.toNat / 30 + (busyState 59 false).pendN.toNat ∧
    (∃ t, step (busyState 30 false) = .next t) ∧ ∃ t, step (busyState 59 false) = .next t :=
  ⟨by decide, by decide, by decide, by decide, ⟨_, busyState_completes 30 false⟩, ⟨_, busyState_completes 59 false⟩⟩

/-- Both ends of a window: TIME 30 and TIME 59, `k = 1`. -/
theorem witness_SameWindowSameCode :
    (busyState 30 true).pendN = (busyState 59 true).pendN ∧ (busyState 30 true).keyBytes = (busyState 59 true).keyBytes ∧
    30 * 1 ≤ (busyState 30 true).time.toNat ∧ (busyState 30 true).time.toNat ≤ 30 * 1 + 29 ∧
    30 * 1 ≤ (busyState 59 true).time.toNat ∧ (busyState 59 true).time.toNat ≤ 30 * 1 + 29 ∧
    (busyState 30 true).completesNext = true ∧ (busyState 59 true).completesNext = true ∧
    (∃ t, step (busyState 30 true) = .next t) ∧ ∃ t, step (busyState 59 true) = .next t :=
  ⟨by decide, by decide, by decide, by decide, by decide, by decide, by decide, by decide,
   ⟨_, busyState_completes 30 true⟩, ⟨_, busyState_completes 59 true⟩⟩

/-- GEN next at TIME 59 and GEN at TIME 60. -/
theorem witness_NextWindowIsTheFollowingWindow :
    (busyState 59 true).completesNext = true ∧ (busyState 60 false).completesNext = true ∧
    (busyState 59 true).keyBytes = (busyState 60 false).keyBytes ∧ (busyState 59 true).pendN = true ∧
    (busyState 60 false).pendN = false ∧ (busyState 59 true).time.toNat / 30 = 1 ∧ (busyState 60 false).time.toNat / 30 = 1 + 1 ∧
    (∃ t, step (busyState 59 true) = .next t) ∧ ∃ t, step (busyState 60 false) = .next t :=
  ⟨by decide, by decide, by decide, by decide, by decide, by decide, by decide,
   ⟨_, busyState_completes 59 true⟩, ⟨_, busyState_completes 60 false⟩⟩

theorem witness_Sha1ScheduleRecurrence : (List.replicate 64 0x36#8).length = 64 ∧ 0 < 16 ∧ 15 < 16 ∧ 16 ≤ 16 ∧ 79 < 80 := by decide

theorem witness_Sha1RoundTables : 0 ≤ 19 ∧ 19 ≤ 19 ∧ 20 ≤ 39 ∧ 39 ≤ 39 ∧ 40 ≤ 59 ∧ 59 ≤ 59 ∧ 60 ≤ 79 ∧ 79 ≤ 79 := by decide

/-- The first and the last round, block and output byte; a message of 56 bytes has two blocks. -/
theorem witness_Sha1CompressesBlocksInOrder :
    0 < 80 ∧ 79 < 80 ∧ 1 < (sha1Pad (List.replicate 56 0x41#8)).length / 64 ∧ 0 < 4 ∧ 3 < 4 := by decide +kernel

/-- Keys of 64 and of 65 bytes, the two sides of R176. -/
theorem witness_HmacKeyBlockIsPadded : (List.replicate 64 0x41#8).length ≤ 64 ∧ 64 < (List.replicate 65 0x41#8).length ∧
    0 < (timedState 59).keylen.toNat ∧ 19 < (timedState 59).keylen.toNat := by decide

theorem witness_TrailingZeroKeyBytesDoNotMatter : ([] : List Byte).length < 64 ∧ (List.replicate 63 0x41#8).length < 64 := by decide

theorem witness_CodeIsSixDigits : (0#20).toNat ≤ 999999 ∧ (999999#20).toNat ≤ 999999 := by decide

theorem witness_FirstErrorIsRecorded :
    State.reset.err = false ∧ ({ State.reset with err := true, ecode := 1#4 } : State).err = true := by decide

theorem witness_DispatchOfAcceptedWords :
    decode 0x05000000#32 = none ∧ decode 0#32 ≠ none ∧ decode 0x01000000#32 ≠ none ∧ decode 0x020000FF#32 ≠ none ∧
    decode 0x0303FFFF#32 ≠ none ∧ decode 0x04000001#32 ≠ none ∧ (0x04000001#32).toNat / 2 ^ 24 = 4 ∧
    ({ State.reset with err := true, ecode := 1#4 } : State).err = true := by decide

/-- The clauses of R226 one by one: an error recorded, an illegal word, the three errors of SYM at their limits (with PENDWS
also at capacity), a symbol just below them, GEN without and with a time. -/
theorem witness_FirstConditionDecidesTheError :
    (Inv ({ State.reset with err := true, ecode := 1#4 } : State) ∧ decode 0x04000000#32 ≠ some .clr) ∧
    (Inv (decoderState 128 6) ∧ (decoderState 128 6).busy = false ∧ decode 0x05000000#32 = none ∧
      decode 0x02000041#32 = some (.sym 0x41#8) ∧ charClass 0x41#8 = .symbol 0#5 ∧ (decoderState 128 6).pendws = false ∧
      8 ≤ (decoderState 128 6).nbits.toNat + 5 ∧ (decoderState 128 6).keylen.toNat = Config.keyCap) ∧
    (Inv ({ decoderState 128 6 with pendws := true } : State) ∧ ({ decoderState 128 6 with pendws := true } : State).pendws = true) ∧
    (Inv (decoderState 128 1) ∧ (decoderState 128 1).nbits.toNat + 5 < 8 ∧ (decoderState 128 1).pendws = false) ∧
    (Inv (decoderState 127 4) ∧ (decoderState 127 4).keylen.toNat ≠ Config.keyCap) ∧
    (charClass 0x21#8 = .invalid ∧ charClass 0x20#8 = .ws ∧ decode 0x04000001#32 = some (.gen true)) ∧
    (Inv (timedState 59) ∧ (timedState 59).tmask = 0b1111#4 ∧ (decoderState 127 4).tmask ≠ 0b1111#4) ∧
    ((busyState 59 true).busy = true ∧ (busyState 59 true).completesNext = true ∧ ∃ t, step (busyState 59 true) = .next t) :=
  ⟨⟨inv_of_invCheck (by decide), by decide⟩,
   ⟨inv_of_invCheck (by decide), by decide, by decide, by decide, by decide, by decide, by decide, by decide⟩,
   ⟨inv_of_invCheck (by decide), by decide⟩, ⟨inv_of_invCheck (by decide), by decide, by decide⟩,
   ⟨inv_of_invCheck (by decide), by decide⟩, ⟨by decide, by decide, by decide⟩,
   ⟨inv_of_invCheck (by decide), by decide, by decide⟩, ⟨by decide, by decide, _, busyState_completes 59 true⟩⟩

/-- A dropped SYM, a CLR and a reset in the error state. -/
theorem witness_OnlyClrOrResetClearsAnError :
    let e : State := { State.reset with err := true, ecode := 1#4 }
    let d : State := { e with host := [.word 0x02000041#32] }
    let c : State := { e with host := [.word 0x01000000#32] }
    let z : State := { e with host := [.rst] }
    (d.err = true ∧ step d = .next d.advance ∧ d.resetsNext = false ∧ d.acceptsNext ≠ some 0x01000000#32) ∧
    (c.err = true ∧ step c = .next c.advance.clear ∧ c.acceptsNext = some 0x01000000#32) ∧
    (z.err = true ∧ step z = .next z.advance.clear ∧ z.resetsNext = true) :=
  ⟨⟨by decide, rfl, by decide, by decide⟩, ⟨by decide, rfl, by decide⟩, ⟨by decide, rfl, by decide⟩⟩

/-- A read changes nothing of the machine; a SYM is neither an LDT, a GEN, a completion, a reset nor a CLR. -/
theorem witness_ElementsChangeOnlyByTheirWriters :
    let s : State := { decoderState 0 5 with host := [.word 0x02000041#32] }
    let r : State := { decoderState 0 5 with host := [.rd 0#6] }
    step s = .next (s.advance.emitSymbol 0#5) ∧ s.resetsNext = false ∧ s.acceptsNext ≠ some (encode .clr) ∧
    (∀ q imm, s.acceptsNext ≠ some (encode (.ldt q imm))) ∧ (∀ n, s.acceptsNext ≠ some (encode (.gen n))) ∧ s.completesNext = false ∧
    step r = .next (r.advance.readPort 0#6) ∧ r.resetsNext = false ∧ r.acceptsNext ≠ some (encode .clr) ∧
    ∀ ch, r.acceptsNext ≠ some (encode (.sym ch)) := by
  refine ⟨rfl, by decide, by decide, fun q imm h => ?_, by decide, by decide, rfl, by decide, by decide, fun ch h => nomatch h⟩
  have h' : 0x02000041#32 = encode (.ldt q imm) := Option.some.inj h
  have := congrArg BitVec.toNat h'
  rw [encode_ldt_toNat] at this
  have e : (0x02000041#32).toNat = 0x02000041 := rfl
  omega

/-- Two machines with different keys and buffers, in a step that accepts a SYM; and a state whose SYM faults, out of reach. -/
theorem witness_KeyIsInvisibleUntilCompletion :
    let s : State := { decoderState 0 5 with host := [.word 0x02000041#32] }
    let s' : State := { s with key := [(0, 0x55#8)], buf := 0b10101#12 }
    let f : State := { decoderState 200 5 with host := [.word 0x02000041#32] }
    (SameButKeyMaterial s s' ∧ s.completesNext = false ∧ step s = .next (s.advance.emitSymbol 0#5)) ∧
    (SameButKeyMaterial f f ∧ f.completesNext = false ∧ step f = .fault .keyIndexOutOfRange) :=
  ⟨⟨rfl, by decide, rfl⟩, ⟨rfl, by decide, rfl⟩⟩

/-- The invariants hold in a state with a GEN in flight, and in one with results. -/
theorem witness_EveryStepKeepsTheInvariants :
    Inv (busyState 59 true) ∧ Inv (stateOf (completeGen (busyState 59 false))) :=
  ⟨inv_of_invCheck (by decide), inv_of_invCheck (by decide +kernel)⟩

/-- A host that reads once while a GEN is in flight. A host that reads not at all is within any GEN_LAT_MAX. -/
theorem witness_GenCompletesEventually :
    (Inv ({ busyState 59 false with host := [.rd 0#6, .wait] } : State) ∧
      ({ busyState 59 false with host := [.rd 0#6, .wait] } : State).busy = true) ∧
    WithinLatency (busyState 59 false) :=
  ⟨⟨inv_of_invCheck (by decide), by decide⟩, Nat.succ_pos Config.genLatExtra⟩

/-- A fresh decoder; a secret that is accepted, one with inner whitespace, and one too long for the buffer. -/
theorem witness_SymStreamDecodesTheSecret :
    DecoderFresh State.reset ∧ secretFits [0x20, 0x6D, 0x79, 0x0A] = true ∧ secretFits [0x4D, 0x20, 0x59] = false ∧
    secretFits (List.replicate 206 0x41#8) = true ∧ secretFits (List.replicate 207 0x41#8) = false := by
  refine ⟨⟨rfl, rfl, rfl, rfl, rfl, rfl, rfl⟩, by decide, by decide, by decide +kernel, by decide +kernel⟩

theorem witness_TotpSessionGeneratesTheCode :
    let s : State := { State.reset with host := totpActions [0x4D, 0x79] 59 true }
    let r : State := { State.reset with host := totpActions [0x4D, 0x21] (2 ^ 64 - 1) false }
    (59 < 2 ^ 64 ∧ s.busy = false ∧ s.host = totpActions ([0x4D#8, 0x79#8].map BitVec.toNat) 59 true ∧
      secretFits [0x4D, 0x79] = true) ∧
    (2 ^ 64 - 1 < 2 ^ 64 ∧ r.busy = false ∧ r.host = totpActions ([0x4D#8, 0x21#8].map BitVec.toNat) (2 ^ 64 - 1) false ∧
      secretFits [0x4D, 0x21] = false) := by decide

end Sys2Proof.Machine
end

section
/-! PROOFS. How a GEN in flight ends (00_scope.md rule R12): each step of a busy machine is a read of the host, which leaves one
leading read less, or it ends the GEN. -/

namespace Sys2Proof.Machine

/-- A read at the head of the host's actions counts one; nothing else does. -/
@[simp] theorem leadingReads_rd_cons (i : BitVec 6) (as : List HostAction) :
    leadingReads (.rd i :: as) = leadingReads as + 1 := rfl

/-- While BUSY = 1 the host reads, or the step completes the GEN or abandons it by a reset (R12, R191, R250). -/
theorem step_read_or_ends_gen {s : State} (hk : s.keylen.toNat ≤ Config.keyCap) (hb : s.busy = true) :
    (∃ i rest, s.host = .rd i :: rest ∧ step s = .next (s.advance.readPort i)) ∨
    (∃ t, step s = .next t ∧ t.busy = false) := by
  rcases step_cases s with ⟨-, hs⟩ | ⟨_, _, -, hidle, -⟩ | hread | ⟨_, -, hs⟩ | ⟨_, -, hidle, -⟩ | ⟨-, hidle, -⟩
  case inl => exact .inr ⟨_, hs.trans (completeGen_of_le hk), State.writeResults_busy _ _ _⟩
  case inr.inr.inl => exact .inl hread
  case inr.inr.inr.inl => exact .inr ⟨_, hs, State.clear_busy _⟩
  all_goals exact absurd (hb.symm.trans hidle) (by decide)

/-- A busy machine is idle again after at most the host's leading reads and one more step, by induction on their number. -/
theorem run_leadingReads_ends_gen {s : State} (hk : s.keylen.toNat ≤ Config.keyCap) (hb : s.busy = true) :
    ∃ k t, k ≤ leadingReads s.host + 1 ∧ Host.Core.run core k s = .next t ∧ t.busy = false := by
  induction hn : leadingReads s.host generalizing s with
  | zero =>
    rcases step_read_or_ends_gen hk hb with ⟨i, rest, hh, -⟩ | ⟨t, hs, ht⟩
    · simp [hh] at hn
    · exact ⟨1, t, Nat.le_refl _, run_succ hs, ht⟩
  | succ n ih =>
    rcases step_read_or_ends_gen hk hb with ⟨i, rest, hh, hs⟩ | ⟨t, hs, ht⟩
    · have hrest : leadingReads (s.advance.readPort i).host = n := by simpa [hh] using hn
      obtain ⟨k, t, hle, hrun, ht⟩ := ih (s := s.advance.readPort i) hk hb hrest
      exact ⟨k + 1, t, Nat.succ_le_succ hle, (run_succ hs).trans hrun, ht⟩
    · exact ⟨1, t, by omega, run_succ hs, ht⟩

/-- Settles O52: the bound by the leading reads, which a host within GEN_LAT_MAX keeps below it. -/
theorem genCompletesEventually : Obligations.GenCompletesEventually := by
  intro s hinv hb
  obtain ⟨k, t, hle, hrun, ht⟩ := run_leadingReads_ends_gen hinv.keylen_le hb
  exact ⟨⟨k, t, hle, hrun, ht⟩, fun hlat => ⟨k, t, Nat.le_trans hle hlat, hrun, ht⟩⟩

end Sys2Proof.Machine
end

section
/-! PROOFS. The step for each of the host's next actions that is no word at the port (00_scope.md rule R12). -/

namespace Sys2Proof.Machine

theorem step_of_rd {s : State} {i : BitVec 6} {rest : List HostAction} (h : s.host = .rd i :: rest) :
    step s = .next (s.advance.readPort i) := by
  simp [step, agentStep, h]

theorem step_of_rst {s : State} {rest : List HostAction} (h : s.host = .rst :: rest) : step s = .next s.advance.clear := by
  simp [step, agentStep, h]

theorem step_of_wait {s : State} {rest : List HostAction} (h : s.host = .wait :: rest) (hb : s.busy = false) :
    step s = .next s.advance := by
  simp [step, agentStep, h, hb]

theorem step_of_no_action {s : State} (h : s.host = []) (hb : s.busy = false) : step s = .next s := by
  simp [step, agentStep, h, hb]

end Sys2Proof.Machine
end

section
/-! PROOFS. The key's confidentiality (10_state.md rules R32 and R34): the read port does not look at KEY's bytes and BUF, and
no command's checks do, so two machines that differ only there stay alike until a completion. -/

namespace Sys2Proof.Machine

/-- `s` with other key bytes and another bit buffer. -/
def State.withKeyMaterial (m : Memory) (b : BitVec 12) (s : State) : State := { s with key := m, buf := b }

/-- A state that differs at most in the key material is the other one with its own key material put in. -/
theorem SameButKeyMaterial.eq_withKeyMaterial {s s' : State} (h : SameButKeyMaterial s s') :
    s' = s.withKeyMaterial s'.key s'.buf := h

/-- The reads are not key material. -/
theorem SameButKeyMaterial.reads_eq {s s' : State} (h : SameButKeyMaterial s s') : s'.reads = s.reads := by
  rw [h.eq_withKeyMaterial]
  rfl

/-- A register's value does not depend on the key material (R32). -/
@[simp] theorem regRead_withKeyMaterial (m : Memory) (b : BitVec 12) (s : State) (i : BitVec 6) :
    regRead (s.withKeyMaterial m b) i = regRead s i := rfl

/-- Two outcomes of one kind that differ at most in the key material of their next states. -/
inductive AlikeButKeyMaterial : Host.Outcome State Fault Refusal → Host.Outcome State Fault Refusal → Prop where
  | next {t t' : State} (h : SameButKeyMaterial t t') : AlikeButKeyMaterial (.next t) (.next t')
  | fault (r : Fault) : AlikeButKeyMaterial (.fault r) (.fault r)
  | refused (r : Refusal) : AlikeButKeyMaterial (.refused r) (.refused r)

theorem AlikeButKeyMaterial.of_next {t : State} {o : Host.Outcome State Fault Refusal} (h : AlikeButKeyMaterial (.next t) o) :
    ∃ t', o = .next t' ∧ SameButKeyMaterial t t' := by
  cases h with
  | next hsame => exact ⟨_, rfl, hsame⟩

theorem AlikeButKeyMaterial.of_fault {r : Fault} {o : Host.Outcome State Fault Refusal} (h : AlikeButKeyMaterial (.fault r) o) :
    o = .fault r := by
  cases h
  rfl

section
variable (m : Memory) (b : BitVec 12) (s : State)

/-- The error procedure looks at ERR only (R222). -/
theorem raise_withKeyMaterial (e : ErrorKind) (w : Word) :
    AlikeButKeyMaterial (raise e w s) (raise e w (s.withKeyMaterial m b)) := by
  cases he : s.err
  · rw [raise_of_ok he, raise_of_ok (s := s.withKeyMaterial m b) he]
    exact .next rfl
  · rw [raise_of_err he, raise_of_err (s := s.withKeyMaterial m b) he]
    exact .next rfl

/-- SYM looks at ERR, PENDWS, NBITS and KEYLEN, and at the key material only to write it (R113). -/
theorem execSym_withKeyMaterial (ch : Byte) :
    AlikeButKeyMaterial (execSym ch s) (execSym ch (s.withKeyMaterial m b)) := by
  rcases execSym_cases ch s with ⟨he, hs⟩ | ⟨he, hc, hs⟩ | ⟨he, hc | ⟨hp, v, hc⟩, hs⟩ | ⟨v, he, hc, hp, hn, hk, hs⟩ |
    ⟨v, he, hc, hp, hn, hs⟩ | ⟨v, he, hc, hp, hn, hk, hs⟩ | ⟨v, he, hc, hp, hn, hk, hs⟩ <;> rw [hs]
  · rw [execSym_of_err (s := s.withKeyMaterial m b) he]
    exact .next rfl
  · rw [execSym_ws (s := s.withKeyMaterial m b) he hc]
    exact .next rfl
  · rw [execSym_invalid (s := s.withKeyMaterial m b) he hc]
    exact .next rfl
  · rw [execSym_pendws (s := s.withKeyMaterial m b) he hc hp]
    exact .next rfl
  · rw [execSym_overflow (s := s.withKeyMaterial m b) he hc hp hn hk]
    exact .next rfl
  · rw [execSym_hold (s := s.withKeyMaterial m b) he hc hp hn]
    exact .next rfl
  · rw [execSym_emit (s := s.withKeyMaterial m b) he hc hp hn hk]
    exact .next rfl
  · rw [execSym_beyond (s := s.withKeyMaterial m b) he hc hp hn hk]
    exact .fault _

/-- LDT looks at ERR only (R141). -/
theorem execLdt_withKeyMaterial (q : BitVec 2) (imm : BitVec 16) :
    AlikeButKeyMaterial (execLdt q imm s) (execLdt q imm (s.withKeyMaterial m b)) := by
  cases he : s.err
  · rw [execLdt, unlessError_of_ok he, execLdt, unlessError_of_ok (s := s.withKeyMaterial m b) he]
    exact .next rfl
  · rw [execLdt, unlessError_of_err he, execLdt, unlessError_of_err (s := s.withKeyMaterial m b) he]
    exact .next rfl

/-- The Accept step of GEN looks at ERR and TMASK only (R190). -/
theorem execGen_withKeyMaterial (n : Bool) :
    AlikeButKeyMaterial (execGen n s) (execGen n (s.withKeyMaterial m b)) := by
  cases he : s.err
  · rw [execGen, unlessError_of_ok he, execGen, unlessError_of_ok (s := s.withKeyMaterial m b) he,
      show timeAvailable (s.withKeyMaterial m b) = timeAvailable s from rfl]
    split
    · exact .next rfl
    · exact raise_withKeyMaterial m b s _ _
  · rw [execGen, unlessError_of_err he, execGen, unlessError_of_err (s := s.withKeyMaterial m b) he]
    exact .next rfl

/-- No command's meaning lets the key material decide anything else. -/
theorem exec_withKeyMaterial (i : Instr) : AlikeButKeyMaterial (exec i s) (exec i (s.withKeyMaterial m b)) := by
  cases i with
  | nop => exact .next rfl
  | clr => exact .next rfl
  | sym ch => exact execSym_withKeyMaterial m b s ch
  | ldt q imm => exact execLdt_withKeyMaterial m b s q imm
  | gen n => exact execGen_withKeyMaterial m b s n

theorem acceptWord_withKeyMaterial (w : Word) :
    AlikeButKeyMaterial (acceptWord w s) (acceptWord w (s.withKeyMaterial m b)) := by
  cases hw : decode w with
  | none =>
    rw [acceptWord_of_none hw, acceptWord_of_none hw]
    exact raise_withKeyMaterial m b s _ w
  | some i =>
    rw [acceptWord_of_decode hw, acceptWord_of_decode hw]
    exact exec_withKeyMaterial m b s i

/-- A step that is no completion goes on alike for every key material (R34, R179). -/
theorem step_withKeyMaterial (h : s.completesNext = false) :
    AlikeButKeyMaterial (step s) (step (s.withKeyMaterial m b)) := by
  rcases step_cases s with ⟨hc, -⟩ | ⟨w, _, hh, hb, -, hs⟩ | ⟨i, _, hh, hs⟩ | ⟨_, hh, hs⟩ | ⟨_, hh, hb, hs⟩ | ⟨hh, hb, hs⟩
  · exact absurd (h.symm.trans hc) (by decide)
  · rw [hs, step_of_word (s := s.withKeyMaterial m b) hh hb]
    exact acceptWord_withKeyMaterial m b s.advance w
  · rw [hs, step_of_rd (s := s.withKeyMaterial m b) hh]
    exact .next rfl
  · rw [hs, step_of_rst (s := s.withKeyMaterial m b) hh]
    exact .next rfl
  · rw [hs, step_of_wait (s := s.withKeyMaterial m b) hh hb]
    exact .next rfl
  · rw [hs, step_of_no_action (s := s.withKeyMaterial m b) hh hb]
    exact .next rfl

end

/-- Settles O48: the register map names no key byte and no bit of BUF. -/
theorem keyIsNotReadable : Obligations.KeyIsNotReadable := fun s m b i => regRead_withKeyMaterial m b s i

/-- Settles O49: the second machine is the first with its own key material put in, and a step that is no completion goes on
alike for both. -/
theorem keyIsInvisibleUntilCompletion : Obligations.KeyIsInvisibleUntilCompletion := by
  intro s s' h hc
  have halike : AlikeButKeyMaterial (step s) (step s') := by
    rw [h.eq_withKeyMaterial]
    exact step_withKeyMaterial s'.key s'.buf s hc
  refine ⟨fun t ht => ?_, fun r hr => (hr ▸ halike).of_fault⟩
  obtain ⟨t', ht', hsame⟩ := (ht ▸ halike).of_next
  exact ⟨t', ht', hsame, hsame.reads_eq⟩

end Sys2Proof.Machine
end

section
/-! PROOFS. Every step keeps the invariants (10_state.md rule R23): one lemma for each named update of the state, then the
commands, the completion and the step. -/

namespace Sys2Proof.Machine

/-! ## The updates of the state -/

theorem inv_reset : Inv State.reset := inv_of_invCheck (by decide)

theorem Inv.clear (s : State) : Inv s.clear := inv_reset.withHost s.host s.reads

theorem Inv.advance {s : State} (h : Inv s) : Inv s.advance := h.withHost s.host.tail s.reads

theorem Inv.readPort {s : State} (h : Inv s) (i : BitVec 6) : Inv (s.readPort i) := h.withHost s.host _

/-- The codes of R221 are not 0, the code of no error. -/
theorem ErrorKind.code_ne_zero (e : ErrorKind) : e.code ≠ 0#4 := by cases e <;> decide

theorem ErrorKind.code_toNat_le (e : ErrorKind) : e.code.toNat ≤ 4 := by cases e <;> decide

/-- A recorded error has a code of R221, and none is recorded while BUSY = 1. -/
theorem Inv.recordError {s : State} (h : Inv s) (hb : s.busy = false) (e : ErrorKind) (w : Word) : Inv (s.recordError e w) :=
  { h with
    err_iff := by simp [e.code_ne_zero]
    ecode_le := e.code_toNat_le
    errdata_zero := by simp
    busy_quiet := by simp [hb] }

theorem Inv.noteWhitespace {s : State} (h : Inv s) : Inv s.noteWhitespace :=
  { h with
    unstarted := fun hs => by
      obtain ⟨hk, hn, hp⟩ := h.unstarted hs
      exact ⟨hk, hn, by simp [pendwsAfterWhitespace, hp, show s.started = false from hs]⟩ }

/-- A held symbol leaves `NBITS + 5` bits, at most 7. -/
theorem Inv.holdSymbol {s : State} (h : Inv s) (hn : s.nbits.toNat < 3) (v : BitVec 5) : Inv (s.holdSymbol v) := by
  have hnb : (s.holdSymbol v).nbits.toNat = s.nbits.toNat + 5 := by
    rw [State.holdSymbol_nbits, BitVec.toNat_ofNat]
    omega
  obtain ⟨l, hl⟩ := h.symbols
  exact { h with
    buf_lt := by
      rw [hnb]
      exact (pushBits_toNat h.buf_lt (by omega) v).2
    unstarted := by simp
    symbols := ⟨l + 1, by rw [hnb, State.holdSymbol_keylen]; omega⟩ }

/-- An emitting symbol writes the byte at KEYLEN and leaves `NBITS + 5 - 8` bits (R115). -/
theorem Inv.emitSymbol {s : State} (h : Inv s) (hn : 3 ≤ s.nbits.toNat) (hk : s.keylen.toNat < Config.keyCap) (v : BitVec 5) :
    Inv (s.emitSymbol v) := by
  have hlt := s.nbits.isLt
  have hk' : s.keylen.toNat < 128 := hk
  have hnb : (s.emitSymbol v).nbits.toNat = s.nbits.toNat + 5 - 8 := by
    rw [State.emitSymbol_nbits, BitVec.toNat_ofNat]
    omega
  have hkl : (s.emitSymbol v).keylen.toNat = s.keylen.toNat + 1 := by
    rw [State.emitSymbol_keylen, BitVec.toNat_add_of_lt (by simp; omega)]
    rfl
  obtain ⟨l, hl⟩ := h.symbols
  exact { h with
    buf_lt := by
      rw [hnb, State.emitSymbol_buf, keepBits_toNat _ (by omega)]
      exact Nat.mod_lt _ (Nat.two_pow_pos _)
    keylen_le := by
      rw [hkl]
      exact hk
    key_wf := Memory.write_wf h.key_wf _ _
    key_below := fun c hc => by
      rw [hkl]
      rcases Memory.mem_write hc with hold | ⟨rfl, -⟩
      · exact Nat.lt_succ_of_lt (h.key_below c hold)
      · exact Nat.lt_succ_self _
    unstarted := by simp
    symbols := ⟨l + 1, by rw [hnb, hkl]; omega⟩ }

theorem Inv.loadQuarter {s : State} (h : Inv s) (hb : s.busy = false) (q : BitVec 2) (imm : BitVec 16) :
    Inv (s.loadQuarter q imm) :=
  { h with busy_quiet := by simp [hb] }

theorem Inv.startGen {s : State} (h : Inv s) (he : s.err = false) (ht : s.tmask = 0b1111#4) (n : Bool) : Inv (s.startGen n) :=
  { h with
    busy_quiet := fun _ => ⟨rfl, he, ht⟩
    pend_busy := fun _ => rfl
    results_agree := by simp }

/-- binaryCode has 31 bits: the top bit of its first byte is masked off (R194). -/
theorem binaryCode_toNat_lt (d : Vector Byte 20) : (binaryCode d).toNat < 2 ^ 31 := by
  have hmsb : (binaryCode d).msb = false := by
    simp [binaryCode, BitVec.msb_eq_getLsbD_last]
  have := BitVec.msb_eq_false_iff_two_mul_lt.1 hmsb
  omega

theorem codeOf_toNat (bc : Word) : (codeOf bc).toNat = bc.toNat % Config.modulus := by
  rw [codeOf, BitVec.toNat_ofNat, Nat.mod_eq_of_lt]
  exact lt_trans (Nat.mod_lt _ (by decide)) (by decide)

/-- The results of a completion agree, whatever the counter and the digest (R191 to R197). -/
theorem Inv.writeResults {s : State} (h : Inv s) (c : BitVec 64) (d : Vector Byte 20) : Inv (s.writeResults c d) :=
  { h with
    trunc_lt := binaryCode_toNat_lt d
    code_lt := by
      rw [State.writeResults_code, codeOf_toNat]
      exact Nat.mod_lt _ (by decide)
    busy_quiet := by simp
    pend_busy := by simp
    results_agree := fun _ => ⟨rfl, rfl, rfl, rfl⟩ }

/-! ## The commands, the completion and the step -/

theorem raise_keeps_inv {s : State} (h : Inv s) (hb : s.busy = false) (e : ErrorKind) (w : Word) :
    ∃ t, raise e w s = .next t ∧ Inv t := by
  cases he : s.err
  · exact ⟨_, raise_of_ok he e w, h.recordError hb e w⟩
  · exact ⟨s, raise_of_err he e w, h⟩

/-- SYM never comes to a byte beyond the buffer: KEYLEN is at most KEY_CAP (R23). -/
theorem execSym_keeps_inv {s : State} (h : Inv s) (hb : s.busy = false) (ch : Byte) : ∃ t, execSym ch s = .next t ∧ Inv t := by
  rcases execSym_cases ch s with ⟨-, hs⟩ | ⟨-, -, hs⟩ | ⟨-, -, hs⟩ | ⟨_, -, -, -, -, -, hs⟩ | ⟨v, -, -, -, hn, hs⟩ |
    ⟨v, -, -, -, hn, hk, hs⟩ | ⟨_, -, -, -, -, hk, -⟩
  · exact ⟨_, hs, h⟩
  · exact ⟨_, hs, h.noteWhitespace⟩
  · exact ⟨_, hs, h.recordError hb _ _⟩
  · exact ⟨_, hs, h.recordError hb _ _⟩
  · exact ⟨_, hs, h.holdSymbol hn v⟩
  · exact ⟨_, hs, h.emitSymbol hn hk v⟩
  · exact absurd h.keylen_le hk.not_ge

theorem execLdt_keeps_inv {s : State} (h : Inv s) (hb : s.busy = false) (q : BitVec 2) (imm : BitVec 16) :
    ∃ t, execLdt q imm s = .next t ∧ Inv t := by
  rcases execLdt_cases q imm s with ⟨-, hs⟩ | ⟨-, hs⟩
  · exact ⟨_, hs, h⟩
  · exact ⟨_, hs, h.loadQuarter hb q imm⟩

theorem execGen_keeps_inv {s : State} (h : Inv s) (hb : s.busy = false) (n : Bool) : ∃ t, execGen n s = .next t ∧ Inv t := by
  rcases execGen_cases n s with ⟨-, hs⟩ | ⟨he, ht, hs⟩ | ⟨-, -, hs⟩
  · exact ⟨_, hs, h⟩
  · exact ⟨_, hs, h.startGen he ht n⟩
  · exact ⟨_, hs, h.recordError hb _ _⟩

/-- Every command accepted at a ready port completes its Accept step and keeps the invariants. -/
theorem exec_keeps_inv {s : State} (h : Inv s) (hb : s.busy = false) (i : Instr) : ∃ t, exec i s = .next t ∧ Inv t := by
  cases i with
  | nop => exact ⟨s, rfl, h⟩
  | clr => exact ⟨s.clear, rfl, Inv.clear s⟩
  | sym ch => exact execSym_keeps_inv h hb ch
  | ldt q imm => exact execLdt_keeps_inv h hb q imm
  | gen n => exact execGen_keeps_inv h hb n

theorem acceptWord_keeps_inv {s : State} (h : Inv s) (hb : s.busy = false) (w : Word) : ∃ t, acceptWord w s = .next t ∧ Inv t := by
  cases hw : decode w with
  | none =>
    rw [acceptWord_of_none hw]
    exact raise_keeps_inv h hb _ w
  | some i =>
    rw [acceptWord_of_decode hw]
    exact exec_keeps_inv h hb i

/-- Settles O50, by the check that evaluates the clauses. -/
theorem invariantsHoldAtReset : Obligations.InvariantsHoldAtReset := inv_reset

/-- Settles O51: each kind of step keeps the invariants by the lemma for it. -/
theorem everyStepKeepsTheInvariants : Obligations.EveryStepKeepsTheInvariants := by
  intro s h
  rcases step_cases s with ⟨-, hs⟩ | ⟨w, _, -, hb, -, hs⟩ | ⟨i, _, -, hs⟩ | ⟨_, -, hs⟩ | ⟨_, -, -, hs⟩ | ⟨-, -, hs⟩
  · exact ⟨_, hs.trans (completeGen_of_le h.keylen_le), h.writeResults _ _⟩
  · obtain ⟨t, ht, hinv⟩ := acceptWord_keeps_inv h.advance hb w
    exact ⟨t, hs.trans ht, hinv⟩
  · exact ⟨_, hs, h.advance.readPort i⟩
  · exact ⟨_, hs, Inv.clear s.advance⟩
  · exact ⟨_, hs, h.advance⟩
  · exact ⟨s, hs, h⟩

end Sys2Proof.Machine
end

section
/-! PROOFS. Who writes which state element (10_state.md rule R25): the frame of each command, then of every step. -/

namespace Sys2Proof

/-- A word that decodes is the word of its command: its reserved bits are 0 (R71, R76). -/
theorem encode_of_decode {w : Word} {i : Instr} (h : decode w = some i) : encode i = w := by
  obtain ⟨hch, hq, himm, hn⟩ := instrOf_fields w
  rw [decode_eq] at h
  split_ifs at h with hnop hclr hsym hldt hgen <;> cases h <;> apply BitVec.eq_of_toNat_eq
  · rw [encode_nop_toNat, hnop]
  · rw [encode_clr_toNat, hclr]
  · rw [encode_sym_toNat, hch]
    omega
  · rw [encode_ldt_toNat, hq, himm]
    omega
  · rw [encode_gen_toNat, hn]
    omega

end Sys2Proof

namespace Sys2Proof.Machine

/-- If the error procedure answers a next state, it has left a later error unrecorded or recorded the first one (R222). -/
theorem raise_next {e : ErrorKind} {w : Word} {s t : State} (h : raise e w s = .next t) :
    (s.err = true ∧ t = s) ∨ (s.err = false ∧ t = s.recordError e w) := by
  cases he : s.err
  · exact .inr ⟨rfl, Host.Outcome.next.inj (h.symm.trans (raise_of_ok he e w))⟩
  · exact .inl ⟨rfl, Host.Outcome.next.inj (h.symm.trans (raise_of_err he e w))⟩

/-! ## SYM -/

/-- The frame of SYM outside the decoder: no other group of elements changes, but for a first error (R25, R222). -/
theorem execSym_frame {ch : Byte} {s t : State} (h : execSym ch s = .next t) :
    SameTime s t ∧ SameResults s t ∧ SameControl s t ∧ SameHost s t ∧
    (SameError s t ∨ (s.err = false ∧ SameDecoder s t ∧ t.err = true ∧ t.errdata = encode (.sym ch))) := by
  rcases execSym_cases ch s with ⟨-, hs⟩ | ⟨-, -, hs⟩ | ⟨he, -, hs⟩ | ⟨_, he, -, -, -, -, hs⟩ | ⟨v, -, -, -, -, hs⟩ |
    ⟨v, -, -, -, -, -, hs⟩ | ⟨_, -, -, -, -, -, hs⟩ <;> cases hs.symm.trans h
  · simp [SameTime, SameResults, SameControl, SameHost, SameError]
  · simp [SameTime, SameResults, SameControl, SameHost, SameError]
  · simp [SameTime, SameResults, SameControl, SameHost, SameDecoder, he]
  · simp [SameTime, SameResults, SameControl, SameHost, SameDecoder, he]
  · simp [SameTime, SameResults, SameControl, SameHost, SameError]
  · simp [SameTime, SameResults, SameControl, SameHost, SameError]

/-- A SYM that stores emits: no check of R113 turns it away, and 8 bits or more are there. -/
theorem execSym_of_symStores {ch : Byte} {s : State} (h : symStores ch s = true) : ∃ v, execSym ch s = .next (s.emitSymbol v) := by
  cases hc : charClass ch with
  | symbol v =>
    simp only [symStores, hc, Bool.and_eq_true, Bool.not_eq_true', decide_eq_true_eq] at h
    obtain ⟨⟨⟨he, hp⟩, hn⟩, hk⟩ := h
    exact ⟨v, execSym_emit he hc hp hn hk⟩
  | ws => simp [symStores, hc] at h
  | invalid => simp [symStores, hc] at h

/-- A SYM that does not store leaves KEYLEN and the key buffer. -/
theorem execSym_key_of_not_symStores {ch : Byte} {s t : State} (hns : symStores ch s = false) (h : execSym ch s = .next t) :
    t.keylen = s.keylen ∧ t.key = s.key := by
  rcases execSym_cases ch s with ⟨-, hs⟩ | ⟨-, -, hs⟩ | ⟨-, -, hs⟩ | ⟨_, -, -, -, -, -, hs⟩ | ⟨v, -, -, -, -, hs⟩ |
    ⟨v, he, hc, hp, hn, hk, hs⟩ | ⟨_, -, -, -, -, -, hs⟩ <;> cases hs.symm.trans h
  case inr.inr.inr.inr.inr.inl => simp [symStores, he, hc, hp, hn, hk] at hns
  all_goals exact ⟨rfl, rfl⟩

/-- Settles O24: the frame holds in each case of SYM, and only the storing one writes the buffer, at KEYLEN. -/
theorem symFrame : Obligations.SymFrame := by
  intro ch s t hwf h
  obtain ⟨htime, hres, hctl, hhost, herr⟩ := execSym_frame h
  refine ⟨htime, hres, hctl, hhost, herr, fun hst a ha => ?_, fun hns => ?_⟩
  · obtain ⟨v, hv⟩ := execSym_of_symStores hst
    cases hv.symm.trans h
    rw [State.emitSymbol_key, Memory.read_write hwf, if_neg ha]
  · obtain ⟨hkl, hkey⟩ := execSym_key_of_not_symStores hns h
    exact ⟨hkl, fun a => by rw [hkey]⟩

/-! ## Every command and every step -/

/-- The changes from `s` to `t` are those that accepting `w`, another word than CLR's, may make: only SYM writes the decoder,
only LDT the time, only GEN the control flags, and the error fields only record a first error of `w` (R25, R222). -/
structure AcceptFrame (w : Word) (s t : State) : Prop where
  decoder : (∀ ch, w ≠ encode (.sym ch)) → SameDecoder s t
  time : (∀ q imm, w ≠ encode (.ldt q imm)) → SameTime s t
  results : SameResults s t
  control : (∀ n, w ≠ encode (.gen n)) → SameControl s t
  error : SameError s t ∨ (s.err = false ∧ t.err = true ∧ t.errdata = w)

theorem AcceptFrame.refl (w : Word) (s : State) : AcceptFrame w s s := by
  constructor <;> simp [SameDecoder, SameTime, SameResults, SameControl, SameError]

theorem AcceptFrame.recordError {s : State} (h : s.err = false) (e : ErrorKind) (w : Word) :
    AcceptFrame w s (s.recordError e w) := by
  constructor <;> simp [SameDecoder, SameTime, SameResults, SameControl, h]

theorem AcceptFrame.loadQuarter (q : BitVec 2) (imm : BitVec 16) (s : State) :
    AcceptFrame (encode (.ldt q imm)) s (s.loadQuarter q imm) where
  decoder _ := by simp [SameDecoder]
  time hne := absurd rfl (hne q imm)
  results := by simp [SameResults]
  control _ := by simp [SameControl]
  error := .inl (by simp [SameError])

theorem AcceptFrame.startGen (n : Bool) (s : State) : AcceptFrame (encode (.gen n)) s (s.startGen n) where
  decoder _ := by simp [SameDecoder]
  time _ := by simp [SameTime]
  results := by simp [SameResults]
  control hne := absurd rfl (hne n)
  error := .inl (by simp [SameError])

/-- The frame of every command but CLR. -/
theorem exec_acceptFrame {i : Instr} {s t : State} (hclr : encode i ≠ encode .clr) (h : exec i s = .next t) :
    AcceptFrame (encode i) s t := by
  cases i with
  | nop =>
    cases h
    exact .refl _ s
  | clr => exact absurd rfl hclr
  | sym ch =>
    obtain ⟨htime, hresults, hcontrol, -, herror⟩ := execSym_frame h
    exact ⟨fun hne => absurd rfl (hne ch), fun _ => htime, hresults, fun _ => hcontrol,
      herror.imp_right fun ⟨he, _, ht, hw⟩ => ⟨he, ht, hw⟩⟩
  | ldt q imm =>
    rcases execLdt_cases q imm s with ⟨-, hs⟩ | ⟨-, hs⟩ <;> cases hs.symm.trans h
    · exact .refl _ s
    · exact .loadQuarter q imm s
  | gen n =>
    rcases execGen_cases n s with ⟨-, hs⟩ | ⟨-, -, hs⟩ | ⟨he, -, hs⟩ <;> cases hs.symm.trans h
    · exact .refl _ s
    · exact .startGen n s
    · exact .recordError he _ _

/-- The frame of every word but CLR's, illegal ones included (R76). -/
theorem acceptWord_acceptFrame {w : Word} {s t : State} (hclr : w ≠ encode .clr) (h : acceptWord w s = .next t) :
    AcceptFrame w s t := by
  cases hw : decode w with
  | none =>
    rw [acceptWord_of_none hw] at h
    rcases raise_next h with ⟨-, rfl⟩ | ⟨he, rfl⟩
    · exact .refl w t
    · exact .recordError he _ w
  | some i =>
    rw [acceptWord_of_decode hw] at h
    obtain rfl := encode_of_decode hw
    exact exec_acceptFrame hclr h

/-- Settles O47: an Accept has the frame of its word, a completion writes the results and the control flags only, and the
other steps write no element. -/
theorem elementsChangeOnlyByTheirWriters : Obligations.ElementsChangeOnlyByTheirWriters := by
  intro s t hst hrst hclr
  rcases step_cases s with ⟨hc, hs⟩ | ⟨w, _, -, -, hacc, hs⟩ | ⟨i, _, -, hs⟩ | ⟨_, hh, -⟩ | ⟨_, -, -, hs⟩ | ⟨-, -, hs⟩
  · obtain ⟨-, rfl⟩ := completeGen_next (hs.symm.trans hst)
    simp [hc, SameDecoder, SameTime, SameError]
  · simp only [hacc, ne_eq, Option.some.injEq] at hclr ⊢
    have hf : AcceptFrame w s.advance t := acceptWord_acceptFrame hclr (hs.symm.trans hst)
    exact ⟨hf.decoder, hf.time, fun _ => hf.results, fun _ => hf.control,
      hf.error.imp_right fun ⟨he, ht, hw⟩ => ⟨he, ht, hw.symm⟩⟩
  · cases hs.symm.trans hst
    simp [SameDecoder, SameTime, SameResults, SameControl, SameError]
  · simp [State.resetsNext, hh] at hrst
  · cases hs.symm.trans hst
    simp [SameDecoder, SameTime, SameResults, SameControl, SameError]
  · cases hs.symm.trans hst
    simp [SameDecoder, SameTime, SameResults, SameControl, SameError]

end Sys2Proof.Machine
end

section
/-! PROOFS. The register map (10_state.md rules R26 and R30): the registers as numbers, and STATUS bit by bit. -/

namespace Sys2Proof.Machine

/-- STATUS as a number (R26). -/
theorem statusWord_toNat (s : State) : (statusWord s).toNat =
    s.busy.toNat * 2 ^ 0 + s.valid.toNat * 2 ^ 1 + s.err.toNat * 2 ^ 2 + s.ecode.toNat * 2 ^ 4 + s.started.toNat * 2 ^ 8 +
      s.pendws.toNat * 2 ^ 9 + s.tmask.toNat * 2 ^ 12 + s.nbits.toNat * 2 ^ 16 := by
  simp only [statusWord, append_toNat, ofBool_toNat, BitVec.toNat_ofNat]
  omega

/-- A DIGEST register as a number: four digest bytes, the first the most significant (R30, R54). -/
theorem digestWord_toNat (d : Vector Byte 20) (k : Fin 5) : (digestWord d k).toNat =
    (digestByte d (4 * k.val)).toNat * 2 ^ 24 + (digestByte d (4 * k.val + 1)).toNat * 2 ^ 16 +
      (digestByte d (4 * k.val + 2)).toNat * 2 ^ 8 + (digestByte d (4 * k.val + 3)).toNat := by
  have hk := k.isLt
  rw [digestWord, ofBe32_toNat, digestByte_of_lt d (by omega), digestByte_of_lt d (by omega), digestByte_of_lt d (by omega),
    digestByte_of_lt d (by omega)]

theorem regRead_digest (s : State) (k : Fin 5) : regRead s (BitVec.ofNat 6 (6 + k.val)) = digestWord s.digest k := by
  match k with
  | 0 => rfl
  | 1 => rfl
  | 2 => rfl
  | 3 => rfl
  | 4 => rfl

/-- The low half of a 64-bit element as a number. -/
theorem lowHalf_toNat (x : BitVec 64) : (x.extractLsb' 0 32).toNat = x.toNat % 2 ^ 32 := by simp

/-- The high half of a 64-bit element as a number. -/
theorem highHalf_toNat (x : BitVec 64) : (x.extractLsb' 32 32).toNat = x.toNat / 2 ^ 32 := by
  have := x.isLt
  rw [BitVec.extractLsb'_toNat, Nat.shiftRight_eq_div_pow]
  omega

/-- Reserved indices read 0 (R31). -/
theorem regRead_reserved (s : State) {i : BitVec 6} (h : 19 ≤ i.toNat) : regRead s i = 0#32 := by
  obtain ⟨k, hk⟩ := Nat.exists_eq_add_of_le' h
  rw [regRead, hk]
  rfl

theorem regRead_trunc_toNat (s : State) : (regRead s 11#6).toNat = s.trunc.toNat % 2 ^ 31 := by
  show (0#1 ++ s.trunc.extractLsb' 0 31).toNat = _
  rw [append_toNat, BitVec.extractLsb'_toNat]
  simp

/-- The last two digits of the code, in the upper half of the word (R30). -/
theorem regRead_codeStr1_toNat (s : State) :
    (regRead s 15#6).toNat = s.codestr[4].toNat * 2 ^ 24 + s.codestr[5].toNat * 2 ^ 16 := by
  show (s.codestr[4] ++ s.codestr[5] ++ 0#16).toNat = _
  simp only [append_toNat, BitVec.toNat_ofNat]
  omega

theorem paramWord_toNat : paramWord.toNat = Config.keyCap + 30 * 2 ^ 16 + 6 * 2 ^ 24 := by decide

/-- What the port answers does not depend on the host's coming actions (R30). -/
@[simp] theorem regRead_advance (s : State) (i : BitVec 6) : regRead s.advance i = regRead s i := rfl

/-- A step that reads appends the port's answer to the host's reads and leaves every element (R30). -/
theorem step_rd_changes_reads_only {s : State} {i : BitVec 6} {rest : List HostAction} (h : s.host = .rd i :: rest) :
    step s = .next { s with host := rest, reads := s.reads ++ [(i, regRead s i)] } := by
  rw [step_of_rd h, State.readPort, regRead_advance, State.advance, h, List.tail_cons]

/-- Settles O11, register by register; the zero-extended elements keep their values, and a read is its step's frame. -/
theorem registerMapReads : Obligations.RegisterMapReads := by
  refine ⟨fun s => ⟨statusWord_toNat s, ?keylen, lowHalf_toNat _, highHalf_toNat _, lowHalf_toNat _, highHalf_toNat _, ?digest,
    regRead_trunc_toNat s, ?offset, ?code, ofBe32_toNat _ _ _ _, regRead_codeStr1_toNat s, rfl, rfl, paramWord_toNat,
    fun i => regRead_reserved s⟩, fun s i rest => step_rd_changes_reads_only⟩
  case keylen => exact BitVec.toNat_setWidth_of_le (by decide)
  case digest =>
    intro k
    rw [regRead_digest, digestWord_toNat]
  case offset => exact BitVec.toNat_setWidth_of_le (by decide)
  case code => exact BitVec.toNat_setWidth_of_le (by decide)

/-! ## STATUS bit by bit -/

/-- A bit of a word by division. -/
theorem getLsbD_eq_of_toNat {w : Word} {k : Nat} {b : Bool} (h : w.toNat / 2 ^ k % 2 = b.toNat) : w.getLsbD k = b := by
  rw [BitVec.getLsbD, Nat.testBit_eq_decide_div_mod_eq, h]
  cases b <;> rfl

/-- A field of a word by division. -/
theorem extractLsb'_eq_of_toNat {w : Word} {k n : Nat} {x : BitVec n} (h : w.toNat / 2 ^ k % 2 ^ n = x.toNat) :
    w.extractLsb' k n = x := by
  rw [← BitVec.toNat_inj, BitVec.extractLsb'_toNat, Nat.shiftRight_eq_div_pow, h]

/-- Settles O12: each field is the quotient and remainder of STATUS at its place. -/
theorem statusFields : Obligations.StatusFields := by
  intro s
  have hstatus : (regRead s 0#6).toNat = _ := statusWord_toNat s
  have hbusy := s.busy.toNat_le
  have hvalid := s.valid.toNat_le
  have herr := s.err.toNat_le
  have hecode := s.ecode.isLt
  have hstarted := s.started.toNat_le
  have hpendws := s.pendws.toNat_le
  have htmask := s.tmask.isLt
  have hnbits := s.nbits.isLt
  refine ⟨getLsbD_eq_of_toNat ?_, getLsbD_eq_of_toNat ?_, getLsbD_eq_of_toNat ?_, getLsbD_eq_of_toNat ?bit3,
    extractLsb'_eq_of_toNat ?_, getLsbD_eq_of_toNat ?_, getLsbD_eq_of_toNat ?_, extractLsb'_eq_of_toNat ?bits10,
    extractLsb'_eq_of_toNat ?_, extractLsb'_eq_of_toNat ?_, extractLsb'_eq_of_toNat ?bits19⟩ <;> rw [hstatus]
  case bit3 =>
    rw [Bool.toNat_false]
    omega
  case bits10 | bits19 =>
    rw [BitVec.toNat_ofNat]
    omega
  all_goals omega

end Sys2Proof.Machine
end

section
/-! PROOFS. The command port (20_memory.md rule R56, 70_reset_and_hazards.md rule R261): when it is ready, what it does with a
word then, and how a word waits while it is not. -/

namespace Sys2Proof.Machine

theorem advance_of_cons {s : State} {a : HostAction} {rest : List HostAction} (h : s.host = a :: rest) :
    s.advance = { s with host := rest } := by
  rw [State.advance, h, List.tail_cons]

/-- `cmd_ready` from BUSY and `rst` (R56). -/
theorem cmdReady_iff (s : State) : s.cmdReady = true ↔ s.busy = false ∧ s.host.head? ≠ some .rst := by
  simp [State.cmdReady, State.rstAsserted]

/-- A busy machine accepts no word, whatever the host does next (R56). -/
theorem acceptsNext_of_busy {s : State} (hb : s.busy = true) : s.acceptsNext = none := by
  unfold State.acceptsNext
  split
  · exact if_pos hb
  · rfl

/-- A host that presents a word or waits leaves the next step of a busy machine to the sequencer (R261). -/
theorem completesNext_of_waiting {s : State} {a : HostAction} {rest : List HostAction} (h : s.host = a :: rest)
    (ha : (∃ w, a = .word w) ∨ a = .wait) (hb : s.busy = true) : s.completesNext = true := by
  obtain ⟨w, rfl⟩ | rfl := ha <;> simp [State.completesNext, h, hb]

/-- A completion is no action of the host, so what the host presents stays presented (R261). -/
theorem completeGen_host {s t : State} (h : completeGen s = .next t) : t.host = s.host := by
  obtain ⟨-, rfl⟩ := completeGen_next h
  exact State.writeResults_host _ _ _

/-- Settles O8: the ready port accepts the word, and an accepted word that decodes runs its command. -/
theorem stepRunsDecodedCommand : Obligations.StepRunsDecodedCommand := by
  intro s w rest i hh hb hw
  calc step s = acceptWord w s.advance := step_of_word hh hb
    _ = exec i s.advance := acceptWord_of_decode hw _
    _ = exec i { s with host := rest } := by rw [advance_of_cons hh]

/-- Settles O9: readiness is a matter of BUSY and `rst`; while BUSY = 1 the step is the completion, which leaves the host. -/
theorem busyPortHoldsTheWord : Obligations.BusyPortHoldsTheWord := by
  refine ⟨cmdReady_iff, fun s a rest hh ha hb => ?_⟩
  have hs : step s = completeGen s := step_of_completesNext (completesNext_of_waiting hh ha hb)
  exact ⟨acceptsNext_of_busy hb, hs, fun t ht => completeGen_host (hs.symm.trans ht)⟩

end Sys2Proof.Machine
end

section
/-! PROOFS. The decoder and the encoder (30_encoding.md rules R71, R75 and R76): the opcode field tells the rows of the map
apart, so a word matches at most one row, and decoding reads that row's fields. -/

namespace Sys2Proof

/-! ## The rows of the opcode map -/

/-- The opcode of a row, bits 31:24 of its words (R71). -/
def Opcode.number (o : Opcode) : Nat := o.pattern.toNat / 2 ^ 24

/-- The rows stand in the map in the order of their opcodes. -/
theorem opcodeMap_getElem?_number (o : Opcode) : opcodeMap[o.number]? = some o := by cases o <;> rfl

theorem mem_opcodeMap (o : Opcode) : o ∈ opcodeMap := List.mem_of_getElem? (opcodeMap_getElem?_number o)

theorem Opcode.number_injective : Function.Injective Opcode.number := fun o o' h =>
  Option.some.inj (by rw [← opcodeMap_getElem?_number o, h, opcodeMap_getElem?_number])

/-- Every row fixes the whole opcode field. -/
theorem opcode_of_matchesWord {o : Opcode} {w : Word} (h : o.matchesWord w = true) : w.toNat / 2 ^ 24 = o.number := by
  cases o with
  | nop => rw [(matchesWord_nop w).1 h]; rfl
  | clr => rw [(matchesWord_clr w).1 h]; rfl
  | sym =>
    have := (matchesWord_sym w).1 h
    show _ = 2
    omega
  | ldt =>
    have := (matchesWord_ldt w).1 h
    show _ = 3
    omega
  | gen =>
    have := (matchesWord_gen w).1 h
    show _ = 4
    omega

/-- No two rows match one word. -/
theorem matchesWord_unique {o o' : Opcode} {w : Word} (h : o.matchesWord w = true) (h' : o'.matchesWord w = true) : o = o' :=
  Opcode.number_injective ((opcode_of_matchesWord h).symm.trans (opcode_of_matchesWord h'))

theorem matchingRows_length_le_one (w : Word) : (opcodeMap.filter fun o => o.matchesWord w).length ≤ 1 := by
  have hnodup : (opcodeMap.filter fun o => o.matchesWord w).Nodup := List.Nodup.filter _ (by decide)
  rw [← List.toFinset_card_of_nodup hnodup, Finset.card_le_one]
  intro o ho o' ho'
  simp only [List.mem_toFinset, List.mem_filter] at ho ho'
  exact matchesWord_unique ho.2 ho'.2

/-! ## Decoding by rows -/

/-- A word decodes to a command exactly when a row matches it and the row's fields hold the command. -/
theorem decode_eq_some_iff {w : Word} {i : Instr} : decode w = some i ↔ ∃ o : Opcode, o.matchesWord w = true ∧ o.instrOf w = i := by
  constructor
  · intro h
    obtain ⟨o, ho, hi⟩ := Option.map_eq_some_iff.1 h
    exact ⟨o, List.find?_some (p := fun o : Opcode => o.matchesWord w) ho, hi⟩
  · rintro ⟨o, hm, rfl⟩
    cases hf : opcodeMap.find? fun o => o.matchesWord w with
    | none => exact absurd hm (List.find?_eq_none.1 hf o (mem_opcodeMap o))
    | some o' => rw [decode, hf, Option.map_some, matchesWord_unique (List.find?_some (p := fun o : Opcode => o.matchesWord w) hf) hm]

theorem decode_of_matchesWord {o : Opcode} {w : Word} (h : o.matchesWord w = true) : decode w = some (o.instrOf w) :=
  decode_eq_some_iff.2 ⟨o, h, rfl⟩

/-- A word that matches no row decodes to nothing. -/
theorem decode_eq_none_iff_no_row {w : Word} : decode w = none ↔ ∀ o : Opcode, ¬ o.matchesWord w = true := by
  rw [Option.eq_none_iff_forall_ne_some]
  constructor
  · exact fun h o hm => h _ (decode_of_matchesWord hm)
  · intro h i hi
    obtain ⟨o, hm, -⟩ := decode_eq_some_iff.1 hi
    exact h o hm

/-- The row of a command. -/
def Instr.opcode : Instr → Opcode
  | .nop => .nop
  | .clr => .clr
  | .sym _ => .sym
  | .ldt _ _ => .ldt
  | .gen _ => .gen

@[simp] theorem opcode_instrOf (o : Opcode) (w : Word) : (o.instrOf w).opcode = o := by cases o <;> rfl

/-- A word that decodes has its masked bits as the row of its command says (R75). -/
theorem masked_of_decode {w : Word} {i : Instr} (h : decode w = some i) : w &&& i.opcode.mask = i.opcode.pattern := by
  obtain ⟨o, hm, rfl⟩ := decode_eq_some_iff.1 h
  rw [opcode_instrOf]
  exact beq_iff_eq.1 hm

/-- A word whose masked bits are as a row says decodes by that row (R75). -/
theorem decode_of_masked {o : Opcode} {w : Word} (h : w &&& o.mask = o.pattern) : decode w = some (o.instrOf w) :=
  decode_of_matchesWord (beq_iff_eq.2 h)

/-- Every command's word matches its row, whose fields give the command back (R71, R75). -/
theorem encodedRow (i : Instr) : Laws.EncodedRow.Statement i := by
  cases i with
  | nop => exact Laws.EncodedRow.nop
  | clr => exact Laws.EncodedRow.clr
  | sym ch => exact Laws.EncodedRow.sym ch
  | ldt q imm => exact Laws.EncodedRow.ldt q imm
  | gen next => exact Laws.EncodedRow.gen next

@[simp] theorem decode_encode (i : Instr) : decode (encode i) = some i := by
  obtain ⟨o, -, hm, hi⟩ := encodedRow i
  exact decode_eq_some_iff.2 ⟨o, hm, hi⟩

/-- R76's illegal words are those that match no row. -/
theorem decode_eq_none_iff_illegalWord (w : Word) : decode w = none ↔ Machine.illegalWord w := by
  rw [decode_eq_none_iff_no_row, Machine.illegalWord]
  constructor
  · intro h
    have hnop := mt (matchesWord_nop w).2 (h .nop)
    have hclr := mt (matchesWord_clr w).2 (h .clr)
    have hsym := mt (matchesWord_sym w).2 (h .sym)
    have hldt := mt (matchesWord_ldt w).2 (h .ldt)
    have hgen := mt (matchesWord_gen w).2 (h .gen)
    omega
  · intro h o hm
    cases o with
    | nop => have := (matchesWord_nop w).1 hm; omega
    | clr => have := (matchesWord_clr w).1 hm; omega
    | sym => have := (matchesWord_sym w).1 hm; omega
    | ldt => have := (matchesWord_ldt w).1 hm; omega
    | gen => have := (matchesWord_gen w).1 hm; omega

/-! ## The obligations -/

/-- Settles O1: the row that the command's word matches is the one the decoder finds. -/
theorem decodeOfEncode : Obligations.DecodeOfEncode := fun i _ => decode_encode i

/-- Settles O2: reserved bits are 0 in a word that decodes. -/
theorem encodeOfDecode : Obligations.EncodeOfDecode := fun _ _ h => encode_of_decode h

/-- Settles O3: a word that decodes matches the row of its command, and a word that matches a row decodes by it. -/
theorem opcodeMapDecodes : Obligations.OpcodeMapDecodes := by
  intro w
  refine ⟨⟨masked_of_decode, decode_of_masked (o := .nop)⟩, ⟨masked_of_decode, decode_of_masked (o := .clr)⟩, ⟨?_, ?_⟩, ⟨?_, ?_⟩,
    ⟨?_, ?_⟩, matchingRows_length_le_one w⟩
  · exact fun ⟨_, h⟩ => masked_of_decode h
  · exact fun h => ⟨_, decode_of_masked (o := .sym) h⟩
  · exact fun ⟨_, _, h⟩ => masked_of_decode h
  · exact fun h => ⟨_, _, decode_of_masked (o := .ldt) h⟩
  · exact fun ⟨_, h⟩ => masked_of_decode h
  · exact fun h => ⟨_, decode_of_masked (o := .gen) h⟩

/-- Settles O4: a word that decodes is its command's word, whose number the encoder's lemmas give. -/
theorem fieldsAtTheirPlaces : Obligations.FieldsAtTheirPlaces := by
  intro w
  refine ⟨fun h => ?_, fun h => ?_, fun ch h => ?_, fun q imm h => ?_, fun n h => ?_, (decode_eq_none_iff_illegalWord w).2⟩ <;>
    rw [← encode_of_decode h]
  · exact encode_nop_toNat
  · exact encode_clr_toNat
  · exact encode_sym_toNat ch
  · exact encode_ldt_toNat q imm
  · exact encode_gen_toNat n

/-- Settles O6, word by word. -/
theorem sampleWordsDecode : Obligations.SampleWordsDecode := by
  refine ⟨?_, ?_, ?_, ?_, ?_, ?_, ?_, ?_, ?_, ?_, ?_⟩ <;> decide

end Sys2Proof

namespace Sys2Proof.Machine

/-- Settles O5: the ready port takes the word, which no row matches, and the error procedure is all that follows. -/
theorem illegalWordsAreRecorded : Obligations.IllegalWordsAreRecorded := by
  refine ⟨decode_eq_none_iff_illegalWord, fun s w rest hw hh hb => ?_⟩
  calc step s = acceptWord w s.advance := step_of_word hh hb
    _ = raise .illegalCommand w s.advance := acceptWord_of_none ((decode_eq_none_iff_illegalWord w).2 hw) _
    _ = raise .illegalCommand w { s with host := rest } := by rw [advance_of_cons hh]
    _ = _ := rfl

end Sys2Proof.Machine
end

section
/-! PROOFS. The assembler's words (30_encoding.md rule R78). -/

namespace Sys2Proof.Machine

theorem encode_sym_ofNat {c : Nat} (h : c < 256) : encode (.sym (BitVec.ofNat 8 c)) = BitVec.ofNat 32 (2 * 2 ^ 24 + c) := by
  rw [← BitVec.toNat_inj, encode_sym_toNat, BitVec.toNat_ofNat, BitVec.toNat_ofNat]
  omega

theorem encode_ldt_ofNat {q imm : Nat} (hq : q < 4) (himm : imm < 65536) :
    encode (.ldt (BitVec.ofNat 2 q) (BitVec.ofNat 16 imm)) = BitVec.ofNat 32 (3 * 2 ^ 24 + q * 2 ^ 16 + imm) := by
  rw [← BitVec.toNat_inj, encode_ldt_toNat, BitVec.toNat_ofNat, BitVec.toNat_ofNat, BitVec.toNat_ofNat]
  omega

theorem assemble_of_wellFormed {a : Asm} (h : a.wellFormed = true) : assemble a = some (Asm.actions a) := if_pos h

theorem assemble_of_not_wellFormed {a : Asm} (h : ¬ a.wellFormed = true) : assemble a = none := if_neg h

theorem Asm.wellFormed_sym (c : Nat) : (Asm.sym c).wellFormed = true ↔ c < 256 := decide_eq_true_iff

theorem Asm.wellFormed_ldt (q imm : Nat) : (Asm.ldt q imm).wellFormed = true ↔ q < 4 ∧ imm < 65536 := by
  simp [Asm.wellFormed]

/-- Settles O7: an operand in range is the operand of the word, and one out of range makes the line ill formed. -/
theorem assemblerEmitsTheWord : Obligations.AssemblerEmitsTheWord := by
  refine ⟨rfl, rfl, rfl, rfl, fun c => ?_, fun q imm => ?_⟩ <;> split_ifs with h
  · rw [assemble_of_wellFormed ((Asm.wellFormed_sym c).2 h), ← encode_sym_ofNat h]
    rfl
  · exact assemble_of_not_wellFormed (mt (Asm.wellFormed_sym c).1 h)
  · rw [assemble_of_wellFormed ((Asm.wellFormed_ldt q imm).2 h), ← encode_ldt_ofNat h.1 h.2]
    rfl
  · exact assemble_of_not_wellFormed (mt (Asm.wellFormed_ldt q imm).1 h)

end Sys2Proof.Machine
end

section
/-! PROOFS. LDT, and the four words of LDT64 (30_encoding.md rules R73 and R79). -/

namespace Sys2Proof.Machine

/-- A quarter of TIME after a quarter is inserted (R73). -/
theorem insertQuarter_quarter (t : BitVec 64) (q : BitVec 2) (imm : BitVec 16) {k : Nat} (hk : k < 4) :
    (insertQuarter t q imm).toNat / 2 ^ (16 * k) % 2 ^ 16 = if k = q.toNat then imm.toNat else t.toNat / 2 ^ (16 * k) % 2 ^ 16 := by
  have hquarter : (insertQuarter t q imm).extractLsb' (16 * k) 16 = if k = q.toNat then imm else t.extractLsb' (16 * k) 16 := by
    refine BitVec.eq_of_getLsbD_eq fun j hj => ?_
    rw [BitVec.getLsbD_extractLsb', insertQuarter_getLsbD t q imm (by omega), show (16 * k + j) / 16 = k by omega,
      show (16 * k + j) % 16 = j by omega]
    split <;> simp [hj]
  have := congrArg BitVec.toNat hquarter
  rw [apply_ite BitVec.toNat] at this
  simpa only [BitVec.extractLsb'_toNat, Nat.shiftRight_eq_div_pow] using this

/-- The bits of TMASK after LDT (R141). -/
theorem tmaskAfterLoad_getLsbD (m : BitVec 4) (q : BitVec 2) (k : Nat) :
    (tmaskAfterLoad m q).getLsbD k = (m.getLsbD k || decide (k = q.toNat)) := by
  rw [tmaskAfterLoad, BitVec.getLsbD_or, ← BitVec.twoPow_eq, BitVec.getLsbD_twoPow]
  simp only [q.isLt, decide_true, Bool.true_and, eq_comm]

theorem execLdt_of_ok {s : State} (h : s.err = false) (q : BitVec 2) (imm : BitVec 16) :
    execLdt q imm s = .next (s.loadQuarter q imm) := unlessError_of_ok h _

/-- Settles O25: the update by LDT, quarter by quarter and bit by bit; its frame is by definition. -/
theorem ldtLoadsOneQuarter : Obligations.LdtLoadsOneQuarter := by
  intro q imm s he
  refine ⟨s.loadQuarter q imm, execLdt_of_ok he q imm, fun k hk => insertQuarter_quarter _ q imm hk,
    fun k _ => tmaskAfterLoad_getLsbD _ q k, ?_⟩
  simp [SameDecoder, SameResults, SameControl, SameError, SameHost]

end Sys2Proof.Machine
end

section
/-! PROOFS. A host that issues commands (20_memory.md rule R56): no command looks at the host's coming actions, so the words of a
list of commands run it as `execAll` does, as long as no GEN makes the port busy. -/

namespace Sys2Proof.Machine

/-! ## The cases of GEN -/

theorem execGen_of_err {s : State} (h : s.err = true) (n : Bool) : execGen n s = .next s := unlessError_of_err h _

theorem timeAvailable_iff (s : State) : timeAvailable s = true ↔ s.tmask = 0b1111#4 := beq_iff_eq

theorem execGen_available {s : State} (h : s.err = false) (ht : s.tmask = 0b1111#4) (n : Bool) :
    execGen n s = .next (s.startGen n) := by
  rw [execGen, unlessError_of_ok h, if_pos ((timeAvailable_iff s).2 ht)]

theorem execGen_unavailable {s : State} (h : s.err = false) (ht : s.tmask ≠ 0b1111#4) (n : Bool) :
    execGen n s = .next (s.recordError .clockUnavailable (encode (.gen n))) := by
  rw [execGen, unlessError_of_ok h, if_neg (mt (timeAvailable_iff s).1 ht), raise_of_ok h]

/-! ## The host's coming actions -/

/-- `s` with other coming actions of the host. -/
def State.withHost (as : List HostAction) (s : State) : State := { s with host := as }

theorem State.withHost_of_host {s : State} {as : List HostAction} (h : s.host = as) : s.withHost as = s := by
  rw [← h]
  rfl

/-- No command's Accept step looks at the host's coming actions, or changes them unless it writes all of the state (CLR). -/
theorem exec_withHost {i : Instr} {s t : State} (h : exec i s = .next t) (as : List HostAction) :
    exec i (s.withHost as) = .next (t.withHost as) := by
  cases i with
  | nop => cases h; rfl
  | clr => cases h; rfl
  | sym ch =>
    rcases execSym_cases ch s with ⟨he, hs⟩ | ⟨he, hc, hs⟩ | ⟨he, hc | ⟨hp, v, hc⟩, hs⟩ | ⟨v, he, hc, hp, hn, hk, hs⟩ |
      ⟨v, he, hc, hp, hn, hs⟩ | ⟨v, he, hc, hp, hn, hk, hs⟩ | ⟨_, -, -, -, -, -, hs⟩ <;> cases hs.symm.trans h
    · exact execSym_of_err (s := s.withHost as) he ch
    · exact execSym_ws (s := s.withHost as) he hc
    · exact execSym_invalid (s := s.withHost as) he hc
    · exact execSym_pendws (s := s.withHost as) he hc hp
    · exact execSym_overflow (s := s.withHost as) he hc hp hn hk
    · exact execSym_hold (s := s.withHost as) he hc hp hn
    · exact execSym_emit (s := s.withHost as) he hc hp hn hk
  | ldt q imm =>
    rcases execLdt_cases q imm s with ⟨he, hs⟩ | ⟨he, hs⟩ <;> cases hs.symm.trans h
    · exact unlessError_of_err (s := s.withHost as) he _
    · exact unlessError_of_ok (s := s.withHost as) he _
  | gen n =>
    rcases execGen_cases n s with ⟨he, hs⟩ | ⟨he, ht, hs⟩ | ⟨he, ht, hs⟩ <;> cases hs.symm.trans h
    · exact execGen_of_err (s := s.withHost as) he n
    · exact execGen_available (s := s.withHost as) he ht n
    · exact execGen_unavailable (s := s.withHost as) he ht n

/-- Only GEN raises BUSY (R190). -/
theorem exec_keeps_idle {i : Instr} {s t : State} (hi : ∀ n, i ≠ .gen n) (hb : s.busy = false) (h : exec i s = .next t) :
    t.busy = false := by
  cases i with
  | nop =>
    cases h
    exact hb
  | clr =>
    cases h
    rfl
  | sym ch =>
    obtain ⟨-, -, ⟨hbusy, -, -⟩, -, -⟩ := execSym_frame h
    exact hbusy.trans hb
  | ldt q imm => rcases execLdt_cases q imm s with ⟨-, hs⟩ | ⟨-, hs⟩ <;> cases hs.symm.trans h <;> exact hb
  | gen n => exact absurd rfl (hi n)

/-- An idle machine's step on an issued command is the command's Accept step (R56). -/
theorem step_of_issue {s t : State} {i : Instr} (hb : s.busy = false) (h : exec i s = .next t) (rest : List HostAction) :
    step (s.withHost (issue i :: rest)) = .next (t.withHost rest) :=
  calc step (s.withHost (issue i :: rest)) = acceptWord (encode i) (s.withHost rest) := step_of_word rfl hb
    _ = exec i (s.withHost rest) := acceptWord_of_decode (decode_encode i) _
    _ = .next (t.withHost rest) := exec_withHost h rest

/-- If the first command and those after it answer a next state together, each of the two does. -/
theorem execAll_cons_next {i : Instr} {is : List Instr} {s t : State} (h : execAll (i :: is) s = .next t) :
    ∃ u, exec i s = .next u ∧ execAll is u = .next t := by
  rw [execAll] at h
  cases hs : exec i s with
  | next u => exact ⟨u, rfl, by rwa [hs] at h⟩
  | fault r =>
    rw [hs] at h
    cases h
  | refused r =>
    rw [hs] at h
    cases h

/-- The commands of a listing, GEN apart, run one a step (R56). -/
theorem run_issued (is : List Instr) (hgen : ∀ i ∈ is, ∀ n, i ≠ .gen n) {s t : State} (hb : s.busy = false)
    (h : execAll is s = .next t) (rest : List HostAction) :
    Host.Core.run core is.length (s.withHost (is.map issue ++ rest)) = .next (t.withHost rest) := by
  induction is generalizing s with
  | nil =>
    cases h
    rfl
  | cons i is ih =>
    obtain ⟨u, hs, htail⟩ := execAll_cons_next h
    have hu : u.busy = false := exec_keeps_idle (hgen i List.mem_cons_self) hb hs
    exact (run_succ (step_of_issue hb hs (is.map issue ++ rest))).trans
      (ih (fun j hj => hgen j (List.mem_cons_of_mem i hj)) hu htail)

/-! ## LDT64 -/

/-- The commands of `LDT64 n` (R79). -/
def ldt64Commands (n : Nat) : List Instr :=
  [.ldt 0#2 (BitVec.ofNat 16 n), .ldt 1#2 (BitVec.ofNat 16 (n / 2 ^ 16)), .ldt 2#2 (BitVec.ofNat 16 (n / 2 ^ 32)),
   .ldt 3#2 (BitVec.ofNat 16 (n / 2 ^ 48))]

theorem ldt64Actions_eq_issued (n : Nat) : ldt64Actions n = (ldt64Commands n).map issue := rfl

theorem ldt64Commands_no_gen (n : Nat) : ∀ i ∈ ldt64Commands n, ∀ b, i ≠ .gen b := by simp [ldt64Commands]

/-- All four quarters of TIME loaded with those of `n`, quarter 0 first (R79). -/
def State.loadTime (n : Nat) (s : State) : State :=
  (((s.loadQuarter 0#2 (BitVec.ofNat 16 n)).loadQuarter 1#2 (BitVec.ofNat 16 (n / 2 ^ 16))).loadQuarter 2#2
    (BitVec.ofNat 16 (n / 2 ^ 32))).loadQuarter 3#2 (BitVec.ofNat 16 (n / 2 ^ 48))

/-- Four quarters make the whole TIME, whatever it was. -/
theorem loadTime_time {n : Nat} (hn : n < 2 ^ 64) (s : State) : (s.loadTime n).time.toNat = n := by
  have hquarter (k : Nat) (hk : k < 4) : (s.loadTime n).time.toNat / 2 ^ (16 * k) % 2 ^ 16 = n / 2 ^ (16 * k) % 2 ^ 16 := by
    simp only [State.loadTime, State.loadQuarter_time, insertQuarter_quarter _ _ _ hk]
    match k, hk with
    | 0, _ => simp
    | 1, _ => simp
    | 2, _ => simp
    | 3, _ => simp
  have h0 := hquarter 0 (by decide)
  have h1 := hquarter 1 (by decide)
  have h2 := hquarter 2 (by decide)
  have h3 := hquarter 3 (by decide)
  have hlt := (s.loadTime n).time.isLt
  omega

/-- Four loads set every bit of TMASK, whatever it was. -/
theorem loadTime_tmask (n : Nat) (s : State) : (s.loadTime n).tmask = 0b1111#4 := by
  refine BitVec.eq_of_getLsbD_eq fun k hk => ?_
  simp only [State.loadTime, State.loadQuarter_tmask, tmaskAfterLoad_getLsbD]
  match k, hk with
  | 0, _ => simp
  | 1, _ => simp
  | 2, _ => simp
  | 3, _ => simp

/-- LDT writes TIME and TMASK only (R25). -/
theorem loadTime_frame (n : Nat) (s : State) :
    SameDecoder s (s.loadTime n) ∧ SameResults s (s.loadTime n) ∧ SameControl s (s.loadTime n) ∧ SameError s (s.loadTime n) ∧
      SameHost s (s.loadTime n) := by
  simp [State.loadTime, SameDecoder, SameResults, SameControl, SameError, SameHost]

theorem execAll_ldt64_of_ok {s : State} (h : s.err = false) (n : Nat) : execAll (ldt64Commands n) s = .next (s.loadTime n) := by
  simp [ldt64Commands, execAll, exec, execLdt_of_ok, State.loadTime, h]

/-- Settles O26: four idle steps accept the four words, and their loads together are those of the whole TIME. -/
theorem ldt64LoadsTime : Obligations.Ldt64LoadsTime := by
  intro n s rest hn he hb hh
  obtain ⟨hdec, hres, hctl, herr, -, hreads⟩ := loadTime_frame n s
  have hrun := run_issued (ldt64Commands n) (ldt64Commands_no_gen n) hb (execAll_ldt64_of_ok he n) rest
  rw [← ldt64Actions_eq_issued, State.withHost_of_host hh] at hrun
  exact ⟨(s.loadTime n).withHost rest, hrun, loadTime_time hn s, loadTime_tmask n s, rfl, hreads, hdec, hres, hctl, herr⟩

end Sys2Proof.Machine
end

section
/-! PROOFS. The decoder against the source's Decode (41_base32_decoder.md rules R113 to R118 and R123): what the decoder holds after
some symbols, bit by bit, and how one more symbol changes it. -/

namespace Sys2Proof.Machine

/-! ## Decode's bits -/

/-- Bits read most significant first: bit `j` of the number is the one `j` places from the end. -/
theorem foldl_bits_testBit (f : Nat → Bool) {n j : Nat} (hj : j < n) :
    ((List.range n).foldl (fun acc k => 2 * acc + (f k).toNat) 0).testBit j = f (n - 1 - j) := by
  induction n generalizing j with
  | zero => omega
  | succ n ih =>
    rw [List.range_succ, List.foldl_append, List.foldl_cons, List.foldl_nil, ← Nat.bit_val]
    cases j with
    | zero => rw [Nat.testBit_bit_zero, Nat.add_sub_cancel, Nat.sub_zero]
    | succ j => rw [Nat.testBit_bit_succ, ih (by omega), show n + 1 - 1 - (j + 1) = n - 1 - j by omega]

/-- Byte `i` of Decode holds bits `8i` to `8i + 7` (R123). -/
theorem decodedByte_getLsbD (t : List Byte) (i : Nat) {j : Nat} (hj : j < 8) :
    (decodedByte t i).getLsbD j = decodedBit t (8 * i + (7 - j)) := by
  rw [decodedByte, BitVec.getLsbD_ofNat, foldl_bits_testBit (fun k => decodedBit t (8 * i + k)) hj]
  simp [hj]

/-- One more character leaves Decode's earlier bits. -/
theorem decodedBit_append_left (t : List Byte) (c : Byte) {k : Nat} (hk : k < 5 * t.length) :
    decodedBit (t ++ [c]) k = decodedBit t k := by
  rw [decodedBit, decodedBit, List.getD_append _ _ _ _ (by omega)]

/-- The last five bits of Decode are the last character's value, most significant first. -/
theorem decodedBit_append_last (t : List Byte) (c : Byte) {j : Nat} (hj : j < 5) :
    decodedBit (t ++ [c]) (5 * (t.length + 1) - 1 - j) = (alphabetValue c).testBit j := by
  rw [decodedBit, show (5 * (t.length + 1) - 1 - j) / 5 = t.length by omega,
    show 4 - (5 * (t.length + 1) - 1 - j) % 5 = j by omega, List.getD_append_right _ _ _ _ le_rfl, Nat.sub_self]
  rfl

/-- One more character leaves Decode's whole bytes. -/
theorem decodedByte_append (t : List Byte) (c : Byte) {i : Nat} (hi : 8 * (i + 1) ≤ 5 * t.length) :
    decodedByte (t ++ [c]) i = decodedByte t i := by
  refine BitVec.eq_of_getLsbD_eq fun j hj => ?_
  rw [decodedByte_getLsbD _ _ hj, decodedByte_getLsbD _ _ hj, decodedBit_append_left _ _ (by omega)]

/-! ## What the decoder holds -/

/-- The decoder of `s` has taken the symbols `l`, as characters of the alphabet, and neither an inner whitespace nor an error:
it holds Decode's whole bytes in the key buffer and the bits after them in BUF (R113 to R118). -/
structure DecoderHolds (l : List Byte) (s : State) : Prop where
  err : s.err = false
  pendws : s.pendws = false
  started : s.started = !l.isEmpty
  count : 8 * s.keylen.toNat + s.nbits.toNat = 5 * l.length
  keylen_le : s.keylen.toNat ≤ Config.keyCap
  buf : ∀ j < s.nbits.toNat, s.buf.getLsbD j = decodedBit l (5 * l.length - 1 - j)
  key : ∀ i < s.keylen.toNat, Memory.read s.key i = decodedByte l i
  key_wf : Memory.wf s.key

/-- A fresh decoder has taken no symbol (R22). -/
theorem DecoderFresh.holds {s : State} (h : DecoderFresh s) : DecoderHolds [] s := by
  obtain ⟨he, hst, hp, hn, -, hk, hkey⟩ := h
  constructor <;> simp [he, hst, hp, hn, hk, hkey, Memory.wf]

/-- The key is Decode of the symbols, and the counts are those of R117. -/
theorem DecoderHolds.keyBytes {l : List Byte} {s : State} (h : DecoderHolds l s) : s.keyBytes = decodeSecret l := by
  have hn := s.nbits.isLt
  have hcount := h.count
  rw [State.keyBytes, decodeSecret, show 5 * l.length / 8 = s.keylen.toNat by omega]
  exact List.map_congr_left fun i hi => h.key i (List.mem_range.1 hi)

/-- Shifting a symbol into BUF makes the last bits of Decode, one more symbol taken (R114). -/
theorem DecoderHolds.pushBits_getLsbD {l : List Byte} {s : State} (h : DecoderHolds l s) {c : Byte} {v : BitVec 5}
    (hv : alphabetValue c = v.toNat) {j : Nat} (hj : j < s.nbits.toNat + 5) :
    (pushBits s.buf v).getLsbD j = decodedBit (l ++ [c]) (5 * (l ++ [c]).length - 1 - j) := by
  have hn := s.nbits.isLt
  have hcount := h.count
  rw [pushBits, BitVec.getLsbD_or, BitVec.getLsbD_shiftLeft, BitVec.getLsbD_setWidth, List.length_append,
    List.length_singleton]
  by_cases h5 : j < 5
  · rw [decodedBit_append_last l c h5, hv, BitVec.testBit_toNat]
    simp [h5, show j < 12 by omega]
  · rw [decodedBit_append_left l c (by omega), BitVec.getLsbD_of_ge v j (by omega),
      show 5 * (l.length + 1) - 1 - j = 5 * l.length - 1 - (j - 5) by omega, ← h.buf (j - 5) (by omega)]
    simp [h5, show j < 12 by omega]

/-- A held symbol: fewer than 8 bits are there, and none is lost. -/
theorem DecoderHolds.holdSymbol {l : List Byte} {s : State} (h : DecoderHolds l s) {c : Byte} {v : BitVec 5}
    (hv : alphabetValue c = v.toNat) (hn : s.nbits.toNat < 3) : DecoderHolds (l ++ [c]) (s.holdSymbol v) := by
  have hcount := h.count
  have hnb : (s.holdSymbol v).nbits.toNat = s.nbits.toNat + 5 := by
    rw [State.holdSymbol_nbits, BitVec.toNat_ofNat]
    omega
  exact {
    err := h.err
    pendws := h.pendws
    started := by simp
    count := by
      rw [hnb, State.holdSymbol_keylen, List.length_append, List.length_singleton]
      omega
    keylen_le := h.keylen_le
    buf := fun j hj => h.pushBits_getLsbD hv (hnb ▸ hj)
    key := fun i hi => by
      rw [State.holdSymbol_keylen] at hi
      rw [State.holdSymbol_key, decodedByte_append l c (by omega), h.key i hi]
    key_wf := h.key_wf }

theorem keepBits_getLsbD {b : BitVec 12} {n j : Nat} (hn : n ≤ 12) (hj : j < n) : (keepBits b n).getLsbD j = b.getLsbD j := by
  rw [BitVec.getLsbD, keepBits_toNat b hn, Nat.testBit_mod_two_pow]
  simp [hj, BitVec.getLsbD]

/-- An emitting symbol: the byte is Decode's next one, and the bits below it stay (R115). -/
theorem DecoderHolds.emitSymbol {l : List Byte} {s : State} (h : DecoderHolds l s) {c : Byte} {v : BitVec 5}
    (hv : alphabetValue c = v.toNat) (hn : 3 ≤ s.nbits.toNat) (hk : s.keylen.toNat < Config.keyCap) :
    DecoderHolds (l ++ [c]) (s.emitSymbol v) := by
  have hcount := h.count
  have hlt := s.nbits.isLt
  have hcap : s.keylen.toNat < 128 := hk
  have hlen : (l ++ [c]).length = l.length + 1 := by simp
  have hnb : (s.emitSymbol v).nbits.toNat = s.nbits.toNat + 5 - 8 := by
    rw [State.emitSymbol_nbits, BitVec.toNat_ofNat]
    omega
  have hkl : (s.emitSymbol v).keylen.toNat = s.keylen.toNat + 1 := by
    rw [State.emitSymbol_keylen, BitVec.toNat_add_of_lt (by simp; omega)]
    rfl
  have hbyte : (pushBits s.buf v).extractLsb' (s.nbits.toNat + 5 - 8) 8 = decodedByte (l ++ [c]) s.keylen.toNat := by
    refine BitVec.eq_of_getLsbD_eq fun j hj => ?_
    rw [BitVec.getLsbD_extractLsb', h.pushBits_getLsbD hv (by omega), decodedByte_getLsbD _ _ hj, decide_eq_true hj, Bool.true_and]
    congr 1
    omega
  exact {
    err := h.err
    pendws := h.pendws
    started := by simp
    count := by
      rw [hnb, hkl]
      omega
    keylen_le := hkl ▸ hk
    buf := fun j hj => by
      rw [hnb] at hj
      rw [State.emitSymbol_buf, keepBits_getLsbD (by omega) hj, h.pushBits_getLsbD hv (by omega)]
    key := fun i hi => by
      rw [hkl] at hi
      rw [State.emitSymbol_key, Memory.read_write h.key_wf, hbyte]
      split
      · next heq => rw [heq]
      · rw [decodedByte_append l c (by omega), h.key i (by omega)]
    key_wf := Memory.write_wf h.key_wf _ _ }

end Sys2Proof.Machine
end

section
/-! PROOFS. The SYMs of a whole secret (41_base32_decoder.md rules R112, R113, R120 and R123): whitespace at the edges does not
count, and the trimmed secret is accepted up to its first wrong character or the end of the buffer. -/

namespace Sys2Proof.Machine

/-- A character that is in the alphabet once upper-cased is a symbol with the alphabet's value (R110, R111). -/
theorem charClass_of_alphabet {c : Byte} (h : alphabet.contains (upperByte c) = true) :
    ∃ v, charClass c = .symbol v ∧ alphabetValue (upperByte c) = v.toNat := by
  obtain ⟨hsymbol, hinvalid, hws, hwsout⟩ := charClass_spec c
  cases hc : charClass c with
  | symbol v => exact ⟨v, rfl, (hsymbol v hc).2.1⟩
  | ws => exact absurd (h.symm.trans (hwsout (hws.1 hc))) (by decide)
  | invalid => exact absurd (h.symm.trans (hinvalid hc).1) (by decide)

/-! ## One SYM after the other -/

/-- A SYM that answers a next state, and the characters after it. -/
theorem execAll_sym_cons {c : Byte} {s u : State} (h : execSym c s = .next u) (p : List Byte) :
    execAll ((c :: p).map Instr.sym) s = execAll (p.map Instr.sym) u := by
  rw [List.map_cons, execAll, exec, h]

/-- A SYM that raises: the characters after it are dropped (R223). -/
theorem execAll_sym_cons_of_raise {c : Byte} {s u : State} (h : execSym c s = .next u) (hu : u.err = true) (p : List Byte) :
    ∃ t, execAll ((c :: p).map Instr.sym) s = .next t ∧ t.err = true :=
  ⟨u, (execAll_sym_cons h p).trans (execAll_sym_of_err p hu), hu⟩

/-! ## Whitespace at the edges -/

/-- Before the first symbol whitespace changes nothing (R113). -/
theorem noteWhitespace_of_unstarted {s : State} (h : s.started = false) : s.noteWhitespace = s := by
  rw [State.noteWhitespace, show pendwsAfterWhitespace s = s.pendws by simp [pendwsAfterWhitespace, h]]

theorem execAll_leading_whitespace (p : List Byte) (hp : ∀ c ∈ p, isWhitespace c = true) {s : State} (he : s.err = false)
    (hst : s.started = false) : execAll (p.map Instr.sym) s = .next s := by
  induction p with
  | nil => rfl
  | cons c p ih =>
    obtain ⟨hc, hp⟩ := List.forall_mem_cons.1 hp
    rw [execAll_sym_cons (execSym_ws he ((charClass_spec c).2.2.1.2 hc)), noteWhitespace_of_unstarted hst]
    exact ih hp

/-- Whitespace changes PENDWS at most, whether an error is recorded or not (R113, R223). -/
theorem execAll_whitespace (p : List Byte) (hp : ∀ c ∈ p, isWhitespace c = true) (s : State) :
    ∃ b, execAll (p.map Instr.sym) s = .next { s with pendws := b } := by
  induction p generalizing s with
  | nil => exact ⟨s.pendws, rfl⟩
  | cons c p ih =>
    obtain ⟨hc, hp⟩ := List.forall_mem_cons.1 hp
    rcases Bool.eq_false_or_eq_true s.err with he | he
    · exact ⟨s.pendws, execAll_sym_of_err (c :: p) he⟩
    · rw [execAll_sym_cons (execSym_ws he ((charClass_spec c).2.2.1.2 hc))]
      exact ih hp s.noteWhitespace

/-! ## The trimmed secret -/

/-- Whitespace after a symbol is an error as soon as another character than whitespace follows (R113, R120). -/
theorem execAll_after_inner_whitespace (p : List Byte) (hp : ∃ c ∈ p, isWhitespace c = false) {s : State} (he : s.err = false)
    (hw : s.pendws = true) : ∃ t, execAll (p.map Instr.sym) s = .next t ∧ t.err = true := by
  induction p generalizing s with
  | nil => simp at hp
  | cons c p ih =>
    cases hc : charClass c with
    | ws =>
      have hcw : isWhitespace c = true := (charClass_spec c).2.2.1.1 hc
      rw [execAll_sym_cons (execSym_ws he hc)]
      exact ih (by simpa [hcw] using hp) he (by simp [pendwsAfterWhitespace, hw])
    | invalid => exact execAll_sym_cons_of_raise (execSym_invalid he hc) rfl p
    | symbol v => exact execAll_sym_cons_of_raise (execSym_pendws he hc hw) rfl p

/-- The characters `p` are accepted after the symbols `l`: they are in the alphabet, and the key fits into the buffer. -/
def fitsAfter (l p : List Byte) : Bool :=
  (p.all fun c => alphabet.contains (upperByte c)) && decide (5 * (l.length + p.length) / 8 ≤ Config.keyCap)

theorem secretFits_eq_fitsAfter (secret : List Byte) : secretFits secret = fitsAfter [] (trimSecret secret) := by
  simp [secretFits, fitsAfter, validSecret, normalizeSecret, List.all_map, Function.comp_def]

theorem fitsAfter_cons {c : Byte} (h : alphabet.contains (upperByte c) = true) (l p : List Byte) :
    fitsAfter l (c :: p) = fitsAfter (l ++ [upperByte c]) p := by
  rw [fitsAfter, fitsAfter, List.all_cons, h, Bool.true_and, List.length_cons, List.length_append, List.length_singleton,
    Nat.add_assoc, Nat.add_comm 1]

theorem fitsAfter_cons_of_not_alphabet {c : Byte} (h : alphabet.contains (upperByte c) = false) (l p : List Byte) :
    fitsAfter l (c :: p) = false := by
  rw [fitsAfter, List.all_cons, h, Bool.false_and, Bool.false_and]

theorem fitsAfter_cons_of_overflow {l : List Byte} (h : Config.keyCap < 5 * (l.length + 1) / 8) (c : Byte) (p : List Byte) :
    fitsAfter l (c :: p) = false := by
  rw [fitsAfter, List.length_cons, decide_eq_false (by omega), Bool.and_false]

/-- One more symbol is held or emitted, or it overflows the buffer (R113, R122). -/
theorem DecoderHolds.takes_or_overflows {l : List Byte} {s : State} (h : DecoderHolds l s) {c : Byte}
    (hc : alphabet.contains (upperByte c) = true) :
    (∃ t, execSym c s = .next t ∧ DecoderHolds (l ++ [upperByte c]) t) ∨
    (∃ t, execSym c s = .next t ∧ t.err = true ∧ Config.keyCap < 5 * (l.length + 1) / 8) := by
  obtain ⟨v, hsym, hv⟩ := charClass_of_alphabet hc
  have hcount := h.count
  rcases Nat.lt_or_ge s.nbits.toNat 3 with hn | hn
  · exact .inl ⟨_, execSym_hold h.err hsym h.pendws hn, h.holdSymbol hv hn⟩
  · rcases Nat.lt_or_eq_of_le h.keylen_le with hk | hk
    · exact .inl ⟨_, execSym_emit h.err hsym h.pendws hn hk, h.emitSymbol hv hn hk⟩
    · exact .inr ⟨_, execSym_overflow h.err hsym h.pendws hn hk, rfl, by omega⟩

/-- The characters of a trimmed secret, or of what is left of one after some symbols: they are all taken, or one of them raises
an error (R120, R122, R123). -/
theorem execAll_trimmed (p : List Byte) {l : List Byte} {s : State} (h : DecoderHolds l s)
    (hhead : l = [] → ∀ c ∈ p.head?, isWhitespace c = false) (hlast : ∀ c ∈ p.getLast?, isWhitespace c = false) :
    ∃ t, execAll (p.map Instr.sym) s = .next t ∧
      ((fitsAfter l p = true ∧ DecoderHolds (l ++ p.map upperByte) t) ∨ (fitsAfter l p = false ∧ t.err = true)) := by
  induction p generalizing l s with
  | nil =>
    have hcount := h.count
    have hcap := h.keylen_le
    have hn := s.nbits.isLt
    refine ⟨s, rfl, .inl ⟨?_, by simpa using h⟩⟩
    simp only [fitsAfter, List.all_nil, List.length_nil, Bool.true_and, decide_eq_true_eq]
    omega
  | cons c p ih =>
    cases hc : alphabet.contains (upperByte c)
    · rw [fitsAfter_cons_of_not_alphabet hc]
      suffices hraise : ∃ t, execAll ((c :: p).map Instr.sym) s = .next t ∧ t.err = true by
        obtain ⟨t, ht, herr⟩ := hraise
        exact ⟨t, ht, .inr ⟨rfl, herr⟩⟩
      cases hclass : charClass c with
      | symbol v => exact absurd (hc.symm.trans ((charClass_spec c).1 v hclass).1) (by decide)
      | invalid => exact execAll_sym_cons_of_raise (execSym_invalid h.err hclass) rfl p
      | ws =>
        have hcw : isWhitespace c = true := (charClass_spec c).2.2.1.1 hclass
        have hl : l ≠ [] := fun hl => by simpa [hcw] using hhead hl c
        have hp : ∃ d ∈ p, isWhitespace d = false := by
          cases hd : p.getLast? with
          | none => simpa [List.getLast?_eq_none_iff.1 hd, hcw] using hlast c
          | some d => exact ⟨d, List.mem_of_getLast? hd, hlast d (List.mem_getLast?_cons hd)⟩
        rw [execAll_sym_cons (execSym_ws h.err hclass)]
        exact execAll_after_inner_whitespace p hp h.err (by simp [pendwsAfterWhitespace, h.started, hl])
    · rcases h.takes_or_overflows hc with ⟨u, hu, hholds⟩ | ⟨u, hu, herr, hover⟩
      · rw [fitsAfter_cons hc, execAll_sym_cons hu, List.map_cons, List.append_cons l (upperByte c) (p.map upperByte)]
        exact ih hholds (by simp) fun d hd => hlast d (List.mem_getLast?_cons hd)
      · obtain ⟨t, ht, hterr⟩ := execAll_sym_cons_of_raise hu herr p
        exact ⟨t, ht, .inr ⟨fitsAfter_cons_of_overflow hover c p, hterr⟩⟩

/-- A secret without its leading whitespace is the trimmed secret and the whitespace after it (R112). -/
theorem trimSecret_append (secret : List Byte) :
    trimSecret secret ++ (secret.dropWhile isWhitespace).rtakeWhile isWhitespace = secret.dropWhile isWhitespace :=
  List.rdropWhile_append_rtakeWhile

theorem trimSecret_head (secret : List Byte) : ∀ c ∈ (trimSecret secret).head?, isWhitespace c = false := by
  intro c hc
  have hhead : c ∈ (secret.dropWhile isWhitespace).head? := by
    rw [← trimSecret_append secret]
    exact List.mem_head?_append_of_mem_head? hc
  have hnot := List.head?_dropWhile_not isWhitespace secret
  rw [Option.mem_def.1 hhead] at hnot
  exact hnot

theorem trimSecret_getLast (secret : List Byte) : ∀ c ∈ (trimSecret secret).getLast?, isWhitespace c = false := by
  intro c hc
  obtain ⟨hne, rfl⟩ := List.mem_getLast?_eq_getLast hc
  exact Bool.eq_false_iff.2 (List.rdropWhile_last_not isWhitespace (secret.dropWhile isWhitespace) hne)

/-! ## The whole secret -/

/-- The SYMs of a secret, accepted by a fresh decoder: they end with an error exactly when the secret is refused, and else with
Decode of the normalised secret in the key buffer (R117, R123). -/
theorem execAll_secret (secret : List Byte) {s : State} (h : DecoderFresh s) :
    ∃ t, execAll (secret.map Instr.sym) s = .next t ∧ t.err = !secretFits secret ∧
      (secretFits secret = true → t.keyBytes = decodeSecret (normalizeSecret secret) ∧ t.keylen.toNat ≤ Config.keyCap ∧
        8 * t.keylen.toNat + t.nbits.toNat = 5 * (normalizeSecret secret).length) := by
  obtain ⟨t, ht, hcase⟩ := execAll_trimmed (trimSecret secret) h.holds (fun _ => trimSecret_head secret) (trimSecret_getLast secret)
  obtain ⟨b, hb⟩ := execAll_whitespace ((secret.dropWhile isWhitespace).rtakeWhile isWhitespace)
    (fun c hc => List.mem_rtakeWhile_imp hc) t
  have hleading : execAll ((secret.takeWhile isWhitespace).map Instr.sym) s = .next s :=
    execAll_leading_whitespace _ (fun c hc => List.mem_takeWhile_imp hc) h.holds.err h.holds.started
  have hrun : execAll (secret.map Instr.sym) s = .next { t with pendws := b } := by
    rw [← List.takeWhile_append_dropWhile (p := isWhitespace) (l := secret), List.map_append, execAll_append _ _ hleading,
      ← trimSecret_append secret, List.map_append, execAll_append _ _ ht, hb]
  refine ⟨_, hrun, ?_⟩
  rw [secretFits_eq_fitsAfter]
  rcases hcase with ⟨hfit, hholds⟩ | ⟨hfit, herr⟩
  · rw [hfit]
    rw [List.nil_append] at hholds
    exact ⟨hholds.err, fun _ => ⟨hholds.keyBytes, hholds.keylen_le, hholds.count⟩⟩
  · rw [hfit]
    exact ⟨herr, fun hf => absurd hf (by decide)⟩

end Sys2Proof.Machine
end

section
/-! PROOFS. A whole session, `TOTP "s", t` (30_encoding.md rule R79): CLR, the secret and the time are accepted one command a step,
and then GEN completes with the code of the decoded secret, or is dropped after an error (60_exceptions.md rule R223). -/

namespace Sys2Proof.Machine

/-! ## The frame of a secret's SYMs -/

/-- No group of elements but the decoder and the error fields differs (R25). -/
def SameOutsideDecoder (s t : State) : Prop := SameTime s t ∧ SameResults s t ∧ SameControl s t ∧ SameHost s t

theorem SameOutsideDecoder.refl (s : State) : SameOutsideDecoder s s := by
  simp [SameOutsideDecoder, SameTime, SameResults, SameControl, SameHost]

theorem SameOutsideDecoder.trans {s t u : State} (h : SameOutsideDecoder s t) (h' : SameOutsideDecoder t u) :
    SameOutsideDecoder s u := by
  simp only [SameOutsideDecoder, SameTime, SameResults, SameControl, SameHost] at h h' ⊢
  simp [h, h']

theorem execAll_sym_frame (p : List Byte) {s t : State} (h : execAll (p.map Instr.sym) s = .next t) : SameOutsideDecoder s t := by
  induction p generalizing s with
  | nil =>
    cases h
    exact .refl _
  | cons c p ih =>
    obtain ⟨u, hs, htail⟩ := execAll_cons_next h
    obtain ⟨htime, hresults, hcontrol, hhost, -⟩ := execSym_frame hs
    exact .trans ⟨htime, hresults, hcontrol, hhost⟩ (ih htail)

/-! ## CLR, the secret and the time -/

theorem clear_decoderFresh (s : State) : DecoderFresh s.clear := ⟨rfl, rfl, rfl, rfl, rfl, rfl, rfl⟩

/-- The commands of `TOTP "s", t` before its GEN (R79). -/
def totpSetup (secret : List Byte) (time : Nat) : List Instr := .clr :: secret.map Instr.sym ++ ldt64Commands time

@[simp] theorem totpSetup_length (secret : List Byte) (time : Nat) : (totpSetup secret time).length = secret.length + 5 := by
  simp [totpSetup, ldt64Commands]

theorem totpSetup_no_gen (secret : List Byte) (time : Nat) : ∀ i ∈ totpSetup secret time, ∀ b, i ≠ .gen b := by
  intro i hi b
  simp only [totpSetup, List.cons_append, List.mem_cons, List.mem_append, List.mem_map] at hi
  rcases hi with rfl | ⟨c, -, rfl⟩ | hi
  · exact Instr.noConfusion
  · exact Instr.noConfusion
  · exact ldt64Commands_no_gen time i hi b

theorem totpActions_eq_issued (secret : List Byte) (time : Nat) (next : Bool) :
    totpActions (secret.map BitVec.toNat) time next = (totpSetup secret time).map issue ++ [issue (.gen next)] := by
  simp [totpActions, totpSetup, secretActions, ldt64Actions_eq_issued]

theorem execAll_ldt64_of_err {s : State} (h : s.err = true) (n : Nat) : execAll (ldt64Commands n) s = .next s := by
  simp [ldt64Commands, execAll, exec, execLdt, unlessError_of_err, h]

/-- What is loaded before the GEN: the decoded secret and the whole time, or an error; and no result (R101, R123, R223). -/
theorem execAll_totpSetup (secret : List Byte) {time : Nat} (htime : time < 2 ^ 64) (s : State) :
    ∃ u, execAll (totpSetup secret time) s = .next u ∧ u.busy = false ∧ u.valid = false ∧ u.code = 0#20 ∧ u.err = !secretFits secret ∧
      (secretFits secret = true → u.keyBytes = decodeSecret (normalizeSecret secret) ∧ u.keylen.toNat ≤ Config.keyCap ∧
        u.time.toNat = time ∧ u.tmask = 0b1111#4) := by
  obtain ⟨t, ht, herr, hkey⟩ := execAll_secret secret (clear_decoderFresh s)
  obtain ⟨-, ⟨-, -, -, -, hcode, -⟩, ⟨hbusy, hvalid, -⟩, -⟩ := execAll_sym_frame secret ht
  have hrun : execAll (totpSetup secret time) s = execAll (ldt64Commands time) t := execAll_append _ _ ht
  rw [hrun]
  cases hfit : secretFits secret
  · rw [hfit] at herr
    exact ⟨t, execAll_ldt64_of_err herr time, hbusy, hvalid, hcode, herr, fun h => absurd h (by decide)⟩
  · rw [hfit] at herr
    obtain ⟨hbytes, hcap, -⟩ := hkey hfit
    exact ⟨t.loadTime time, execAll_ldt64_of_ok herr time, hbusy, hvalid, hcode, herr,
      fun _ => ⟨hbytes, hcap, loadTime_time htime t, loadTime_tmask time t⟩⟩

/-! ## GEN -/

/-- The scaler is exact: it does not overflow 64 bits (R143, R144). -/
theorem scaleTime_toNat (time : BitVec 64) (next : Bool) : (scaleTime time next).toNat = time.toNat / 30 + next.toNat := by
  have hlt := time.isLt
  have hnext := next.toNat_le
  have hstep : windowStep next = next.toNat := by cases next <;> rfl
  rw [scaleTime, hstep, BitVec.toNat_ofNat, show Config.period = 30 from rfl]
  omega

/-- The digest of the GEN in flight is the source's, for its key and its counter (R191). -/
theorem genDigest_eq_totpDigest (s : State) : s.genDigest = totpDigest s.keyBytes s.genCounter.toNat := by
  rw [State.genDigest, totpDigest, BitVec.ofNat_toNat, BitVec.setWidth_eq]

/-- GEN and its completion, the host having nothing left after it (R190, R191). -/
theorem run_gen_of_available {u : State} (hb : u.busy = false) (he : u.err = false) (ht : u.tmask = 0b1111#4)
    (hk : u.keylen.toNat ≤ Config.keyCap) (next : Bool) :
    Host.Core.run core 2 (u.withHost [issue (.gen next)]) = .next
      (((u.startGen next).withHost []).writeResults (scaleTime u.time next)
        (totpDigest u.keyBytes (u.time.toNat / 30 + next.toNat))) := by
  have hcomplete : step ((u.startGen next).withHost []) = .next _ :=
    (step_of_completesNext rfl).trans (completeGen_of_le hk)
  rw [genDigest_eq_totpDigest, show ((u.startGen next).withHost []).genCounter = scaleTime u.time next from rfl,
    scaleTime_toNat] at hcomplete
  exact (run_succ (step_of_issue (i := .gen next) hb (execGen_available he ht next) [])).trans (run_succ hcomplete)

/-- A dropped GEN, and then the host has nothing left (R223, R236). -/
theorem run_gen_of_err {u : State} (hb : u.busy = false) (he : u.err = true) (next : Bool) :
    Host.Core.run core 2 (u.withHost [issue (.gen next)]) = .next (u.withHost []) :=
  (run_succ (step_of_issue (i := .gen next) hb (execGen_of_err he next) [])).trans (run_succ (step_of_no_action rfl hb))

/-- Settles O54: `length + 5` steps load the secret and the time, and two more run GEN. -/
theorem totpSessionGeneratesTheCode : Obligations.TotpSessionGeneratesTheCode := by
  intro secret time next s htime hb hh
  obtain ⟨u, hu, hbusy, hvalid, hcode, herr, hloaded⟩ := execAll_totpSetup secret htime s
  have hsetup := run_issued (totpSetup secret time) (totpSetup_no_gen secret time) hb hu [issue (.gen next)]
  rw [← totpActions_eq_issued, State.withHost_of_host hh, totpSetup_length] at hsetup
  have hrun : Host.Core.run core (secret.length + 7) s = Host.Core.run core 2 (u.withHost [issue (.gen next)]) :=
    run_add (secret.length + 5) 2 hsetup
  rw [hrun]
  cases hfit : secretFits secret
  · rw [hfit] at herr
    exact ⟨_, run_gen_of_err hbusy herr next, hbusy, rfl, fun h => absurd h (by decide), fun _ => ⟨hvalid, herr, hcode⟩⟩
  · rw [hfit] at herr
    obtain ⟨hkey, hcap, htimeq, htmask⟩ := hloaded hfit
    refine ⟨_, run_gen_of_available hbusy herr htmask hcap next, rfl, rfl, fun _ => ⟨rfl, herr, ?_, ?_, rfl⟩,
      fun h => absurd h (by decide)⟩
    · rw [State.writeResults_counter, scaleTime_toNat, htimeq]
    · rw [State.writeResults_code, hkey, htimeq, totpCode]

end Sys2Proof.Machine
end

section
/-! PROOFS. The session commands NOP and CLR (40_session.md rules R100 and R101), and what ERR = 1 leaves of the other commands
(60_exceptions.md rule R223). -/

namespace Sys2Proof.Machine

/-! ## NOP -/

/-- NOP's word is the word 0 alone (R75, R100). -/
theorem decode_eq_nop_iff (w : Word) : decode w = some .nop ↔ w = 0x00000000#32 := by
  constructor
  · exact fun h => (encode_of_decode h).symm
  · rintro rfl
    exact decode_encode .nop

/-- Opcode 0 has no operand: every bit below it is reserved (R71, R76). -/
theorem decode_opcode_zero_of_ne_zero {w : Word} (hop : w.toNat / 2 ^ 24 = 0) (hne : w ≠ 0x00000000#32) : decode w = none := by
  have hpos : w.toNat ≠ 0 := fun h => hne (BitVec.eq_of_toNat_eq h)
  have hreserved : w.toNat / 2 ^ 24 ≤ 1 ∧ w.toNat % 2 ^ 24 ≠ 0 := by omega
  exact (decode_eq_none_iff_illegalWord w).2 (.inr (.inl hreserved))

/-- Settles O15: NOP's word by the decoder's laws, and its meaning by definition. -/
theorem nopChangesNothing : Obligations.NopChangesNothing :=
  ⟨rfl, decode_eq_nop_iff, fun _ => decode_opcode_zero_of_ne_zero, fun _ => rfl⟩

/-! ## CLR -/

/-- CLR and reset leave every element of R22 at its reset value, whatever the state (R101, R250). -/
theorem clear_atReset (s : State) : AtReset s.clear := by
  simp [AtReset, State.reset, Memory.unlisted]

theorem clear_sameHost (s : State) : SameHost s s.clear := ⟨rfl, rfl⟩

/-- Every command but CLR leaves the state as it is while ERR = 1: NOP has no effect, and the others are dropped (R100, R223). -/
theorem exec_of_err {i : Instr} (hi : i ≠ .clr) {s : State} (h : s.err = true) : exec i s = .next s := by
  cases i with
  | nop => rfl
  | clr => exact absurd rfl hi
  | sym ch => exact execSym_of_err h ch
  | ldt q imm => exact unlessError_of_err h _
  | gen n => exact execGen_of_err h n

/-- Settles O16: CLR's next state is the cleared one, and every other command keeps a state with ERR = 1. -/
theorem clrRestoresReset : Obligations.ClrRestoresReset := by
  refine ⟨rfl, rfl, fun s => ⟨s.clear, rfl, clear_atReset s, clear_sameHost s⟩, fun s _ _ hb => acceptsNext_of_busy hb, ?_⟩
  intro i s t hi he ht
  cases (exec_of_err hi he).symm.trans ht
  exact he

end Sys2Proof.Machine
end

section
/-! PROOFS. The characters of a secret (41_base32_decoder.md rules R110 and R111): the class of every byte by the ranges of its
number, and the alphabet in index order. -/

namespace Sys2Proof.Machine

/-! ## The table of R111, row by row -/

theorem charClass_upper {ch : Byte} (hlo : 0x41 ≤ ch.toNat) (hhi : ch.toNat ≤ 0x5A) :
    ∃ v, charClass ch = .symbol v ∧ v.toNat = ch.toNat - 0x41 := by
  have hrow : 0x41#8 ≤ ch ∧ ch ≤ 0x5A#8 := ⟨hlo, hhi⟩
  refine ⟨_, by rw [charClass, if_pos hrow], ?_⟩
  bv_omega

theorem charClass_lower {ch : Byte} (hlo : 0x61 ≤ ch.toNat) (hhi : ch.toNat ≤ 0x7A) :
    ∃ v, charClass ch = .symbol v ∧ v.toNat = ch.toNat - 0x61 := by
  have hupper : ¬ (0x41#8 ≤ ch ∧ ch ≤ 0x5A#8) := by bv_omega
  have hrow : 0x61#8 ≤ ch ∧ ch ≤ 0x7A#8 := ⟨hlo, hhi⟩
  refine ⟨_, by rw [charClass, if_neg hupper, if_pos hrow], ?_⟩
  bv_omega

theorem charClass_digit {ch : Byte} (hlo : 0x32 ≤ ch.toNat) (hhi : ch.toNat ≤ 0x37) :
    ∃ v, charClass ch = .symbol v ∧ v.toNat = ch.toNat - 0x32 + 26 := by
  have hupper : ¬ (0x41#8 ≤ ch ∧ ch ≤ 0x5A#8) := by bv_omega
  have hlower : ¬ (0x61#8 ≤ ch ∧ ch ≤ 0x7A#8) := by bv_omega
  have hrow : 0x32#8 ≤ ch ∧ ch ≤ 0x37#8 := ⟨hlo, hhi⟩
  refine ⟨_, by rw [charClass, if_neg hupper, if_neg hlower, if_pos hrow], ?_⟩
  bv_omega

theorem isWhitespace_iff_toNat (ch : Byte) : isWhitespace ch = true ↔ ch.toNat ∈ [0x09, 0x0A, 0x0B, 0x0C, 0x0D, 0x20] := by
  simp [isWhitespace, ← BitVec.toNat_inj, or_assoc]

theorem charClass_ws {ch : Byte} (h : ch.toNat ∈ [0x09, 0x0A, 0x0B, 0x0C, 0x0D, 0x20]) : charClass ch = .ws := by
  obtain ⟨-, -, hws, -⟩ := charClass_spec ch
  exact hws.2 ((isWhitespace_iff_toNat ch).2 h)

/-- A byte of none of the four rows before it is INVALID. -/
theorem charClass_invalid {ch : Byte} (hupper : ¬ (0x41 ≤ ch.toNat ∧ ch.toNat ≤ 0x5A))
    (hlower : ¬ (0x61 ≤ ch.toNat ∧ ch.toNat ≤ 0x7A)) (hdigit : ¬ (0x32 ≤ ch.toNat ∧ ch.toNat ≤ 0x37))
    (hws : ch.toNat ∉ [0x09, 0x0A, 0x0B, 0x0C, 0x0D, 0x20]) :
    charClass ch = .invalid :=
  (if_neg hupper).trans ((if_neg hlower).trans ((if_neg hdigit).trans (if_neg (mt (isWhitespace_iff_toNat ch).1 hws))))

/-- Settles O17, one lemma for each row; the INVALID ranges meet no other row. -/
theorem characterClasses : Obligations.CharacterClasses := by
  refine fun ch => ⟨fun h => charClass_upper h.1 h.2, fun h => charClass_lower h.1 h.2, fun h => charClass_digit h.1 h.2,
    charClass_ws, fun h => charClass_invalid ?_ ?_ ?_ ?_⟩
  · omega
  · omega
  · omega
  · simp only [List.mem_cons, List.not_mem_nil, or_false]
    omega

/-! ## The alphabet of R110 -/

theorem alphabet_getD_toNat (v : BitVec 5) :
    (alphabet.getD v.toNat 0).toNat = if v.toNat < 26 then 0x41 + v.toNat else 0x32 + (v.toNat - 26) := by
  revert v
  decide

/-- The character at index `v` is a symbol of the table, with value `v`. -/
theorem charClass_alphabet (v : BitVec 5) : charClass (alphabet.getD v.toNat 0) = .symbol v := by
  have hlt := v.isLt
  have hchar := alphabet_getD_toNat v
  split at hchar
  · obtain ⟨w, hw, hval⟩ := charClass_upper (ch := alphabet.getD v.toNat 0) (by omega) (by omega)
    rw [hw, BitVec.eq_of_toNat_eq (show w.toNat = v.toNat by omega)]
  · obtain ⟨w, hw, hval⟩ := charClass_digit (ch := alphabet.getD v.toNat 0) (by omega) (by omega)
    rw [hw, BitVec.eq_of_toNat_eq (show w.toNat = v.toNat by omega)]

/-- Upper-casing leaves every byte below `a` (R112). -/
theorem upperByte_of_lt {c : Byte} (h : c.toNat < 0x61) : upperByte c = c :=
  if_neg fun hlower => absurd hlower.1 (by bv_omega)

/-- The class of a character and its index in the alphabet agree, by the law that ties classes to the alphabet. -/
theorem alphabetValue_alphabet (v : BitVec 5) : alphabetValue (alphabet.getD v.toNat 0) = v.toNat := by
  have hlt := v.isLt
  have hchar := alphabet_getD_toNat v
  obtain ⟨-, hvalue, -⟩ := (charClass_spec (alphabet.getD v.toNat 0)).1 v (charClass_alphabet v)
  rwa [upperByte_of_lt (by split at hchar <;> omega)] at hvalue

/-- Settles O18, from the table of R111. -/
theorem alphabetValues : Obligations.AlphabetValues :=
  ⟨rfl, fun v => ⟨alphabet_getD_toNat v, charClass_alphabet v, alphabetValue_alphabet v⟩⟩

end Sys2Proof.Machine
end

section
/-! PROOFS. SYM, form by form (41_base32_decoder.md rules R113 to R115, R120 and R122), and the SYMs of a whole secret (R123). -/

namespace Sys2Proof.Machine

/-! ## Whitespace and the errors -/

/-- Settles O19. -/
theorem symWhitespaceIsNoted : Obligations.SymWhitespaceIsNoted := fun _ _ he hc => execSym_ws he hc

/-- An error recorded for a command leaves every element but the error fields (R222). -/
theorem recordError_frame (e : ErrorKind) (w : Word) (s : State) :
    SameDecoder s (s.recordError e w) ∧ SameTime s (s.recordError e w) ∧ SameResults s (s.recordError e w) ∧
      SameControl s (s.recordError e w) ∧ SameHost s (s.recordError e w) := by
  simp [SameDecoder, SameTime, SameResults, SameControl, SameHost]

/-- Both causes of InvalidSecretEncoding (R120). -/
theorem execSym_invalidSecretEncoding {ch : Byte} {s : State} (he : s.err = false)
    (hcause : charClass ch = .invalid ∨ (s.pendws = true ∧ ∃ v, charClass ch = .symbol v)) :
    execSym ch s = .next (s.recordError .invalidSecretEncoding (encode (.sym ch))) := by
  rcases hcause with hinvalid | ⟨hpendws, v, hsymbol⟩
  · exact execSym_invalid he hinvalid
  · exact execSym_pendws he hsymbol hpendws

/-- Settles O20. -/
theorem symInvalidIsRecorded : Obligations.SymInvalidIsRecorded := fun ch _ he hcause =>
  ⟨_, execSym_invalidSecretEncoding he hcause, rfl, rfl, encode_sym_toNat ch, recordError_frame _ _ _⟩

/-- Settles O21. -/
theorem symOverflowIsRecorded : Obligations.SymOverflowIsRecorded := fun ch _ _ he hc hp hn hk =>
  ⟨_, execSym_overflow he hc hp hn hk, rfl, rfl, encode_sym_toNat ch, recordError_frame _ _ _⟩

/-! ## The held symbol -/

theorem holdSymbol_nbits_toNat {s : State} (hn : s.nbits.toNat < 3) (v : BitVec 5) :
    (s.holdSymbol v).nbits.toNat = s.nbits.toNat + 5 := by
  rw [State.holdSymbol_nbits, BitVec.toNat_ofNat]
  omega

/-- Shifting a symbol into BUF is arithmetic, since BUF holds no more than its NBITS bits (R23, R114). -/
theorem Inv.pushBits_toNat {s : State} (h : Inv s) (v : BitVec 5) :
    (pushBits s.buf v).toNat = s.buf.toNat * 2 ^ 5 + v.toNat ∧ (pushBits s.buf v).toNat < 2 ^ (s.nbits.toNat + 5) :=
  Machine.pushBits_toNat h.buf_lt (Nat.le_of_lt_succ s.nbits.isLt) v

/-- Settles O22. -/
theorem symHoldsBits : Obligations.SymHoldsBits := by
  intro ch v s hinv he hc hp hn
  have hsym : execSym ch s = .next (s.holdSymbol v) := execSym_hold he hc hp hn
  obtain ⟨htime, hresults, hcontrol, hhost, -⟩ := execSym_frame hsym
  exact ⟨_, hsym, rfl, holdSymbol_nbits_toNat hn v, (hinv.pushBits_toNat v).1, rfl, rfl, fun _ => rfl, ⟨rfl, rfl, rfl⟩,
    htime, hresults, hcontrol, hhost⟩

/-! ## The emitted byte -/

theorem emitSymbol_nbits_toNat {s : State} (hn : 3 ≤ s.nbits.toNat) (v : BitVec 5) :
    (s.emitSymbol v).nbits.toNat = s.nbits.toNat + 5 - 8 := by
  have hlt := s.nbits.isLt
  rw [State.emitSymbol_nbits, BitVec.toNat_ofNat]
  omega

theorem emitSymbol_keylen_toNat {s : State} (hk : s.keylen.toNat < Config.keyCap) (v : BitVec 5) :
    (s.emitSymbol v).keylen.toNat = s.keylen.toNat + 1 := by
  have hcap : s.keylen.toNat < 128 := hk
  rw [State.emitSymbol_keylen]
  bv_omega

/-- The byte `b[n-1:n-8]` of `n` counted bits is the quotient `b / 2^(n-8)` (R115). -/
theorem extractTopByte_toNat {b : BitVec 12} {n : Nat} (hn : 8 ≤ n) (hb : b.toNat < 2 ^ n) :
    (b.extractLsb' (n - 8) 8).toNat = b.toNat / 2 ^ (n - 8) := by
  have hquot : b.toNat / 2 ^ (n - 8) < 2 ^ 8 := by
    rw [Nat.div_lt_iff_lt_mul (Nat.two_pow_pos _), ← pow_add, Nat.add_sub_cancel' hn]
    exact hb
  rw [BitVec.extractLsb'_toNat, Nat.shiftRight_eq_div_pow, Nat.mod_eq_of_lt hquot]

/-- Settles O23: the top byte is the quotient of the counted bits, and the bits that stay are the remainder. -/
theorem symEmitsTopEightBits : Obligations.SymEmitsTopEightBits := by
  intro ch v s hinv he hc hp hn hk
  have hlt := s.nbits.isLt
  obtain ⟨hpush, hcounted⟩ := hinv.pushBits_toNat v
  have hsym : execSym ch s = .next (s.emitSymbol v) := execSym_emit he hc hp hn hk
  obtain ⟨htime, hresults, hcontrol, hhost, -⟩ := execSym_frame hsym
  refine ⟨_, hsym, rfl, emitSymbol_nbits_toNat hn v, emitSymbol_keylen_toNat hk v, ?_, fun a ha => ?_, ?_, rfl, ⟨rfl, rfl, rfl⟩,
    htime, hresults, hcontrol, hhost⟩
  · rw [State.emitSymbol_key, Memory.read_write hinv.key_wf, if_pos rfl, extractTopByte_toNat (by omega) hcounted, hpush]
  · rw [State.emitSymbol_key, Memory.read_write hinv.key_wf, if_neg ha]
  · rw [State.emitSymbol_buf, keepBits_toNat _ (by omega), hpush]

/-! ## The whole secret -/

/-- Settles O53: what the SYMs of a secret leave in the decoder, with the frame of a secret's SYMs. -/
theorem symStreamDecodesTheSecret : Obligations.SymStreamDecodesTheSecret := by
  intro secret s hfresh
  obtain ⟨t, ht, herr, hdecoded⟩ := execAll_secret secret hfresh
  have haccepted : t.err = false ↔ secretFits secret = true := by rw [herr, Bool.not_eq_false']
  refine ⟨t, ht, haccepted, fun hok => ?_, execAll_sym_frame secret ht⟩
  obtain ⟨hkey, -, hcount⟩ := hdecoded (haccepted.1 hok)
  exact ⟨hkey, hcount⟩

end Sys2Proof.Machine
end

section
/-! PROOFS. The time counter (42_time_counter.md rules R143 to R146): the scaler's range, and completions whose windows, counted
with N, are the same. -/

namespace Sys2Proof.Machine

/-! ## The scaler's range -/

/-- The largest TIME, with N = 1, gives the largest counter (R144). -/
theorem scaleTime_toNat_le (time : BitVec 64) (next : Bool) : (scaleTime time next).toNat ≤ 614891469123651721 := by
  have htime := time.isLt
  have hnext := next.toNat_le
  rw [scaleTime_toNat]
  omega

/-- Settles O30: the scaler is exact, so its range is that of the quotient and N. -/
theorem scalerNeverOverflows : Obligations.ScalerNeverOverflows :=
  ⟨scaleTime_toNat _ _, fun time n => ⟨scaleTime_toNat time n, scaleTime_toNat_le time n⟩⟩

/-! ## Completions with one counter -/

theorem genCounter_toNat (s : State) : s.genCounter.toNat = s.time.toNat / 30 + s.pendN.toNat := scaleTime_toNat s.time s.pendN

/-- A completed GEN has written the results of its counter and digest (R191). -/
theorem step_completes_next {s t : State} (hc : s.completesNext = true) (h : step s = .next t) :
    t = s.writeResults s.genCounter s.genDigest :=
  (completeGen_next ((step_of_completesNext hc).symm.trans h)).2

theorem writeResults_sameResults (c : BitVec 64) (d : Vector Byte 20) (s s' : State) :
    SameResults (s.writeResults c d) (s'.writeResults c d) := ⟨rfl, rfl, rfl, rfl, rfl, rfl⟩

/-- Completions under one key whose counters are both `n` write that counter and the same results, since the digest is a
function of the key and the counter (R191, R198). -/
theorem completions_sameResults {s s' t t' : State} {n : Nat} (hc : s.completesNext = true) (hc' : s'.completesNext = true)
    (hkey : s.keyBytes = s'.keyBytes) (hn : s.time.toNat / 30 + s.pendN.toNat = n)
    (hn' : s'.time.toNat / 30 + s'.pendN.toNat = n) (h : step s = .next t) (h' : step s' = .next t') :
    t.counter.toNat = n ∧ SameResults t t' := by
  rw [← genCounter_toNat] at hn hn'
  have hcounter : s'.genCounter = s.genCounter := BitVec.eq_of_toNat_eq (hn'.trans hn.symm)
  have hdigest : s'.genDigest = s.genDigest := by
    rw [genDigest_eq_totpDigest, genDigest_eq_totpDigest, hkey, hcounter]
  rw [step_completes_next hc h, step_completes_next hc' h', hcounter, hdigest]
  exact ⟨hn, writeResults_sameResults _ _ s s'⟩

/-- Settles O32: the quotient by 30 is `k` throughout the window. -/
theorem sameWindowSameCode : Obligations.SameWindowSameCode := by
  intro s s' t t' k hc hc' hkey hpend hlo hhi hlo' hhi' h h'
  have hwindow : s.time.toNat / 30 = k := by omega
  have hwindow' : s'.time.toNat / 30 = k := by omega
  exact completions_sameResults hc hc' hkey (by rw [hwindow]) (by rw [hwindow', hpend]) h h'

/-- Settles O33: N = 1 in window `k` and N = 0 in window `k + 1` count the same. -/
theorem nextWindowIsTheFollowingWindow : Obligations.NextWindowIsTheFollowingWindow := by
  intro s s' t t' k hc hc' hkey hpend hpend' hwindow hwindow' h h'
  exact completions_sameResults hc hc' hkey (by rw [hwindow, hpend]; rfl) (by rw [hwindow', hpend']; rfl) h h'

end Sys2Proof.Machine
end

section
/-! PROOFS. The HMAC-SHA1 core (43_hmac_sha1.md rules R161 to R178): the padding and its blocks, the message schedule, the rounds
and the chaining value, and the key block of HMAC. -/

namespace Sys2Proof.Machine

/-! ## Padding and blocks -/

/-- Byte `i` of a 64-bit value, the most significant first (R9, R53). -/
theorem be64_getD_toNat (x : BitVec 64) {i : Nat} (hi : i < 8) :
    ((be64 x).getD i 0).toNat = x.toNat / 2 ^ (56 - 8 * i) % 256 := by
  rw [be64_getD x hi]
  split
  · rw [be32_getD_toNat _ ‹_›, BitVec.extractLsb'_toNat, Nat.shiftRight_eq_div_pow]
    interval_cases i <;> omega
  · rw [be32_getD_toNat _ (by omega), BitVec.extractLsb'_toNat, Nat.shiftRight_zero]
    interval_cases i <;> omega

/-- The eight bytes of a number's value modulo 2^64 are the number's own low eight bytes. -/
theorem be64_ofNat_getD_toNat (n : Nat) {i : Nat} (hi : i < 8) :
    ((be64 (BitVec.ofNat 64 n)).getD i 0).toNat = n / 2 ^ (56 - 8 * i) % 256 := by
  rw [be64_getD_toNat _ hi, BitVec.toNat_ofNat]
  interval_cases i <;> omega

theorem sha1PadZeros_fills (len : Nat) : (len + 1 + sha1PadZeros len) % 64 = 56 := by
  rw [sha1PadZeros]
  omega

/-- No smaller number of zero bytes fills: two that fill differ by a multiple of 64 (R161). -/
theorem sha1PadZeros_least (len : Nat) {j : Nat} (hj : j < sha1PadZeros len) : (len + 1 + j) % 64 ≠ 56 := by
  rw [sha1PadZeros] at hj
  omega

theorem sha1Pad_eq (x : List Byte) :
    sha1Pad x = x ++ [0x80#8] ++ List.replicate (sha1PadZeros x.length) 0x00#8 ++ be64 (BitVec.ofNat 64 (8 * x.length)) := by
  simp [sha1Pad]

theorem sha1Pad_length (x : List Byte) : (sha1Pad x).length = x.length + 1 + sha1PadZeros x.length + 8 := by
  simp [sha1Pad_eq]
  omega

theorem sha1Pad_length_mod (x : List Byte) : (sha1Pad x).length % 64 = 0 := by
  have hfills := sha1PadZeros_fills x.length
  rw [sha1Pad_length]
  omega

/-- The padding adds nine bytes and fills the last block (R161, R178). -/
theorem sha1Pad_blockCount (x : List Byte) : (sha1Pad x).length / 64 = (x.length + 9 + 63) / 64 := by
  rw [sha1Pad_length, sha1PadZeros]
  omega

theorem sha1Blocks_flatten (n : Nat) : ∀ p : List Byte, (sha1Blocks n p).flatten = p.take (64 * n) := by
  induction n with
  | zero => intro p; rfl
  | succ n ih =>
    intro p
    rw [sha1Blocks, List.flatten_cons, ih, Nat.mul_succ, Nat.add_comm, List.take_add]

theorem length_of_mem_sha1Blocks {n : Nat} {p b : List Byte} (hn : 64 * n ≤ p.length) (hb : b ∈ sha1Blocks n p) : b.length = 64 := by
  rw [sha1Blocks_eq_map] at hb
  obtain ⟨i, hi, rfl⟩ := List.mem_map.1 hb
  have hin := List.mem_range.1 hi
  rw [List.length_take, List.length_drop]
  omega

/-- Settles O34. -/
theorem sha1PaddingFillsBlocks : Obligations.Sha1PaddingFillsBlocks := by
  intro x
  have hmod := sha1Pad_length_mod x
  refine ⟨sha1PadZeros x.length, sha1Pad_eq x, sha1PadZeros_fills _, fun _ hj => sha1PadZeros_least _ hj,
    fun _ hi => be64_ofNat_getD_toNat _ hi, sha1Pad_length x, hmod, ?_, fun b hb => length_of_mem_sha1Blocks (by omega) hb⟩
  rw [sha1Blocks_flatten]
  exact List.take_of_length_le (by omega)

/-! ## The message schedule -/

/-- The word that follows a schedule held newest word first (R162). -/
def sha1NextWord (ws : List Word) : Word := (ws.getD 2 0 ^^^ ws.getD 7 0 ^^^ ws.getD 13 0 ^^^ ws.getD 15 0).rotateLeft 1

/-- The last word that an extension adds is the next word of the extension before it (R162). -/
theorem sha1Extend_succ (n : Nat) :
    ∀ ws : List Word, sha1Extend (n + 1) ws = sha1NextWord (sha1Extend n ws) :: sha1Extend n ws := by
  induction n with
  | zero => intro ws; rfl
  | succ n ih => intro ws; rw [sha1Extend, ih, ← sha1Extend]

@[simp] theorem sha1BlockWords_length (block : List Byte) : (sha1BlockWords block).length = 16 := by
  simp [sha1BlockWords]

theorem sha1Extend_length (n : Nat) (ws : List Word) : (sha1Extend n ws).length = n + ws.length := by
  induction n with
  | zero => rw [sha1Extend, Nat.zero_add]
  | succ n ih => rw [sha1Extend_succ, List.length_cons, ih, Nat.add_right_comm]

/-- Extending keeps the words that are there; `m` more words push them `m` places back. -/
theorem sha1Extend_getD_add (n m i : Nat) (ws : List Word) : (sha1Extend (n + m) ws).getD (i + m) 0 = (sha1Extend n ws).getD i 0 := by
  induction m with
  | zero => rfl
  | succ m ih => rw [← Nat.add_assoc, ← Nat.add_assoc, sha1Extend_succ, List.getD_cons_succ, ih]

@[simp] theorem sha1Schedule_length (block : List Byte) : (sha1Schedule block).length = 80 := by
  simp [sha1Schedule, sha1Extend_length]

/-- Word `t` of the schedule stands in every extension of the block's words by `n` that comes to it, counted from its newest word. -/
theorem sha1Schedule_getD (block : List Byte) {n t : Nat} (hn : n ≤ 64) (ht : t < 16 + n) :
    (sha1Schedule block).getD t 0 = (sha1Extend n (sha1BlockWords block).reverse).getD (15 + n - t) 0 := by
  obtain ⟨m, hm⟩ := Nat.exists_eq_add_of_le hn
  have hlength : (sha1Extend 64 (sha1BlockWords block).reverse).length = 80 := by simp [sha1Extend_length]
  rw [sha1Schedule, List.getD_eq_getElem?_getD, List.getElem?_reverse (by omega), hlength, ← List.getD_eq_getElem?_getD, hm,
    show 80 - 1 - t = 15 + n - t + m by omega, sha1Extend_getD_add]

theorem sha1BlockWords_getD (block : List Byte) {t : Nat} (ht : t < 16) : (sha1BlockWords block).getD t 0 =
    ofBe32 (block.getD (4 * t) 0) (block.getD (4 * t + 1) 0) (block.getD (4 * t + 2) 0) (block.getD (4 * t + 3) 0) := by
  rw [sha1BlockWords, List.getD_eq_getElem?_getD]
  simp [ht]

theorem sha1Schedule_getD_blockWord (block : List Byte) {t : Nat} (ht : t < 16) :
    (sha1Schedule block).getD t 0 = (sha1BlockWords block).getD t 0 := by
  rw [sha1Schedule_getD block (Nat.zero_le 64) ht, sha1Extend, List.getD_eq_getElem?_getD,
    List.getElem?_reverse (by simp; omega), sha1BlockWords_length, show 16 - 1 - (15 + 0 - t) = t by omega,
    ← List.getD_eq_getElem?_getD]

/-- Settles O35: word `t` is the newest of the extension by `t - 15` words, and the words it is made of are those of the extension
before it. -/
theorem sha1ScheduleRecurrence : Obligations.Sha1ScheduleRecurrence := by
  refine fun block _ => ⟨sha1Schedule_length block, fun t ht => ?_, fun t hlo hhi => ?_⟩
  · rw [sha1Schedule_getD_blockWord block ht, sha1BlockWords_getD block ht, ofBe32_toNat]
  · obtain ⟨n, rfl⟩ := Nat.exists_eq_add_of_le hlo
    have hearlier (j : Nat) (hj : j < 16) : (sha1Schedule block).getD (16 + n - (j + 1)) 0 =
        (sha1Extend n (sha1BlockWords block).reverse).getD j 0 := by
      rw [sha1Schedule_getD block (n := n) (by omega) (by omega), show 15 + n - (16 + n - (j + 1)) = j by omega]
    rw [hearlier 2 (by decide), hearlier 7 (by decide), hearlier 13 (by decide), hearlier 15 (by decide),
      sha1Schedule_getD block (n := n + 1) (by omega) (by omega), show 15 + (n + 1) - (16 + n) = 0 by omega, sha1Extend_succ,
      List.getD_cons_zero, sha1NextWord]

/-! ## Rounds and chaining -/

/-- Settles O36. -/
theorem sha1RoundTables : Obligations.Sha1RoundTables := by
  refine ⟨fun t b c d => ⟨fun hhi => ?_, fun hlo hhi => ?_, fun hlo hhi => ?_, fun hlo _ => ?_⟩, rfl⟩
  · simp [sha1F, sha1K, show t < 20 by omega]
  · simp [sha1F, sha1K, show ¬ t < 20 by omega, show t < 40 by omega]
  · simp [sha1F, sha1K, show ¬ t < 20 by omega, show ¬ t < 40 by omega, show t < 60 by omega]
  · simp [sha1F, sha1K, show ¬ t < 20 by omega, show ¬ t < 40 by omega, show ¬ t < 60 by omega]

/-- The working variables before round `t` of a block's compression (R165). -/
def workingVars (h : Sha1Words) (block : List Byte) (t : Nat) : Sha1Words := sha1Rounds 0 ((sha1Schedule block).take t) h

theorem workingVars_succ (h : Sha1Words) (block : List Byte) {t : Nat} (ht : t < 80) :
    workingVars h block (t + 1) = sha1Round t ((sha1Schedule block).getD t 0) (workingVars h block t) := by
  have hlength : t < (sha1Schedule block).length := by rwa [sha1Schedule_length]
  rw [workingVars, List.take_succ_eq_append_getElem hlength, sha1Rounds_concat, List.length_take_of_le hlength.le, Nat.zero_add,
    ← List.getD_eq_getElem _ 0 hlength, workingVars]

theorem sha1Compress_eq (h : Sha1Words) (block : List Byte) : sha1Compress h block =
    ⟨h.a + (workingVars h block 80).a, h.b + (workingVars h block 80).b, h.c + (workingVars h block 80).c,
      h.d + (workingVars h block 80).d, h.e + (workingVars h block 80).e⟩ := by
  rw [workingVars, List.take_of_length_le (sha1Schedule_length block).le, sha1Compress]

/-- The chaining value after the first `i` blocks of the padded message (R165). -/
def chainingValue (x : List Byte) (i : Nat) : Sha1Words := (sha1Blocks i (sha1Pad x)).foldl sha1Compress sha1Init

theorem chainingValue_succ (x : List Byte) (i : Nat) :
    chainingValue x (i + 1) = sha1Compress (chainingValue x i) (((sha1Pad x).drop (64 * i)).take 64) := by
  rw [chainingValue, sha1Blocks_eq_map, List.range_succ, List.map_append, ← sha1Blocks_eq_map, List.foldl_append, ← chainingValue,
    List.map_singleton, List.foldl_cons, List.foldl_nil]

theorem sha1_eq_output (x : List Byte) : sha1 x = sha1Output (chainingValue x ((sha1Pad x).length / 64)) := rfl

/-- Byte `4j + k` of the output is byte `k` of word `j` (R166). -/
theorem sha1Output_getD (h : Sha1Words) {k : Nat} (hk : k < 4) :
    (sha1Output h).getD k 0 = (be32 h.a).getD k 0 ∧ (sha1Output h).getD (4 + k) 0 = (be32 h.b).getD k 0 ∧
      (sha1Output h).getD (8 + k) 0 = (be32 h.c).getD k 0 ∧ (sha1Output h).getD (12 + k) 0 = (be32 h.d).getD k 0 ∧
      (sha1Output h).getD (16 + k) 0 = (be32 h.e).getD k 0 := by
  interval_cases k <;> exact ⟨rfl, rfl, rfl, rfl, rfl⟩

/-- Settles O55, with the working variables and the chaining values as the two sequences. -/
theorem sha1CompressesBlocksInOrder : Obligations.Sha1CompressesBlocksInOrder := by
  refine ⟨fun h block => ⟨workingVars h block, rfl, fun t ht => ?_, sha1Compress_eq h block⟩,
    fun x => ⟨chainingValue x, rfl, fun i _ => chainingValue_succ x i, sha1_length x, fun k hk => ?_⟩⟩
  · rw [workingVars_succ h block ht]
    exact ⟨rfl, rfl, rfl, rfl, rfl⟩
  · obtain ⟨ha, hb, hc, hd, he⟩ := sha1Output_getD (chainingValue x ((sha1Pad x).length / 64)) hk
    simp only [sha1_eq_output, ha, hb, hc, hd, he, be32_getD_toNat _ hk, and_self]

/-! ## HMAC -/

theorem keyBytes_length (s : State) : s.keyBytes.length = s.keylen.toNat := by simp [State.keyBytes]

theorem keyBytes_getD (s : State) {j : Nat} (hj : j < s.keylen.toNat) : s.keyBytes.getD j 0 = Memory.read s.key j := by
  rw [State.keyBytes, List.getD_eq_getElem?_getD]
  simp [hj]

theorem hmacKeyBlock_of_le {k : List Byte} (hk : k.length ≤ 64) :
    hmacKeyBlock k = k ++ List.replicate (64 - k.length) 0x00#8 := by
  simp only [hmacKeyBlock, if_neg (Nat.not_lt.2 hk)]

theorem hmacKeyBlock_of_gt {k : List Byte} (hk : 64 < k.length) : hmacKeyBlock k = sha1 k ++ List.replicate 44 0x00#8 := by
  simp only [hmacKeyBlock, if_pos hk, sha1_length]

@[simp] theorem hmacKeyBlock_length (k : List Byte) : (hmacKeyBlock k).length = 64 := by
  rcases Nat.lt_or_ge 64 k.length with hk | hk
  · simp [hmacKeyBlock_of_gt hk]
  · simp [hmacKeyBlock_of_le hk, hk]

@[simp] theorem xorPad_length (pad : Byte) (k0 : List Byte) : (xorPad pad k0).length = k0.length := List.length_map ..

/-- The zero byte is one of those that fill the key block (R176). -/
theorem hmacKeyBlock_append_zero {k : List Byte} (hk : k.length < 64) : hmacKeyBlock (k ++ [0x00#8]) = hmacKeyBlock k := by
  have happended : (k ++ [0x00#8]).length = k.length + 1 := List.length_append
  rw [hmacKeyBlock_of_le hk.le, hmacKeyBlock_of_le (happended ▸ hk), happended, List.append_assoc, List.singleton_append,
    ← List.replicate_succ, show 64 - (k.length + 1) + 1 = 64 - k.length by omega]

/-- Settles O37. -/
theorem hmacNestsTwoHashes : Obligations.HmacNestsTwoHashes := fun _ _ => rfl

/-- Settles O38: the inner message has 64 + 8 bytes and the outer one 64 + 20. -/
theorem hmacBlocksPerGen : Obligations.HmacBlocksPerGen := by
  refine fun k c => ⟨?_, ?_, sha1Pad_blockCount k⟩
  · rw [sha1Pad_blockCount, List.length_append, xorPad_length, hmacKeyBlock_length, be64_length]
  · rw [sha1Pad_blockCount, List.length_append, xorPad_length, hmacKeyBlock_length, sha1_length]

/-- Settles O39. -/
theorem hmacKeyBlockIsPadded : Obligations.HmacKeyBlockIsPadded :=
  ⟨fun s => ⟨keyBytes_length s, fun _ hj => keyBytes_getD s hj⟩,
    fun k => ⟨hmacKeyBlock_length k, hmacKeyBlock_of_le, fun hk => ⟨sha1_length k, hmacKeyBlock_of_gt hk⟩,
      hmacKeyBlock_of_le (Nat.zero_le 64)⟩⟩

/-- Settles O40: both keys have one key block, and the digest looks at the key through it alone. -/
theorem trailingZeroKeyBytesDoNotMatter : Obligations.TrailingZeroKeyBytesDoNotMatter := by
  refine fun k m hk => ⟨?_, hmacSha1_length k m⟩
  rw [hmacSha1, hmacKeyBlock_append_zero hk, ← hmacSha1]

end Sys2Proof.Machine
end

section
/-! PROOFS. GEN (44_generate.md): its Accept step (R190), the truncation of the digest (R192 to R194) and the digits of the code
(R195, R196), the completion's results (R191, R198), and what the result registers read meanwhile (R199). -/

namespace Sys2Proof.Machine

/-! ## The Accept step -/

/-- Settles O27, one lemma for each case of the Accept step. -/
theorem genAcceptStarts : Obligations.GenAcceptStarts := fun n _ =>
  ⟨encode_gen_toNat n, fun he ht => execGen_available he ht n, fun he ht => execGen_unavailable he ht n,
    fun he => execGen_of_err he n, acceptsNext_of_busy⟩

/-! ## Dynamic truncation -/

/-- The low nibble of the last byte (R192). -/
theorem truncOffset_toNat (d : Vector Byte 20) : (truncOffset d).toNat = (digestByte d 19).toNat % 16 := by
  rw [truncOffset, BitVec.toNat_setWidth, BitVec.toNat_and, show (0x0F#8).toNat = 2 ^ 4 - 1 from rfl,
    Nat.and_two_pow_sub_one_eq_mod, Nat.mod_mod]

/-- Four bytes shifted to their places are the word of the four bytes: bit `i` of either is a bit of the byte at its place. -/
theorem shiftedBytes_eq_ofBe32 (b0 b1 b2 b3 : Byte) :
    (b0.setWidth 32 <<< 24) ||| (b1.setWidth 32 <<< 16) ||| (b2.setWidth 32 <<< 8) ||| b3.setWidth 32 = ofBe32 b0 b1 b2 b3 := by
  refine BitVec.eq_of_getLsbD_eq fun i hi => ?_
  simp only [ofBe32, BitVec.getLsbD_or, BitVec.getLsbD_shiftLeft, BitVec.getLsbD_setWidth, BitVec.getLsbD_append]
  grind

/-- binaryCode is the big-endian value of the window's four bytes, the top bit of the first masked off (R192, R194). -/
theorem binaryCode_toNat (d : Vector Byte 20) :
    (binaryCode d).toNat = (digestByte d (truncOffset d).toNat).toNat % 2 ^ 7 * 2 ^ 24 +
      (digestByte d ((truncOffset d).toNat + 1)).toNat * 2 ^ 16 + (digestByte d ((truncOffset d).toNat + 2)).toNat * 2 ^ 8 +
      (digestByte d ((truncOffset d).toNat + 3)).toNat := by
  rw [binaryCode, shiftedBytes_eq_ofBe32, ofBe32_toNat, BitVec.toNat_and, show (0x7F#8).toNat = 2 ^ 7 - 1 from rfl,
    Nat.and_two_pow_sub_one_eq_mod]

/-- Settles O41: the offset is below 16, so its window ends at byte 18. -/
theorem dynamicTruncation : Obligations.DynamicTruncation := by
  refine fun d => ⟨truncOffset_toNat d, ?_, binaryCode_toNat d, binaryCode_toNat_lt d⟩
  have hoffset := (truncOffset d).isLt
  omega

/-! ## The digits -/

theorem codeOf_toNat_le (bc : Word) : (codeOf bc).toNat ≤ 999999 := by
  rw [codeOf_toNat]
  exact Nat.le_of_lt_succ (Nat.mod_lt _ (by decide))

/-- Character `j` of the code as a number (R196). -/
theorem codeString_toNat (c : BitVec 20) (j : Fin 6) : (codeString c)[j].toNat = 0x30 + c.toNat / 10 ^ (5 - j.val) % 10 := by
  rw [codeString_getElem, digitChar_toNat]

/-- The value of digit `j` of the code (R196). -/
theorem digitChar_value (c : BitVec 20) (j : Nat) : (digitChar c j).toNat - 0x30 = c.toNat / 10 ^ (5 - j) % 10 := by
  rw [digitChar_toNat, Nat.add_sub_cancel_left]

/-- A code below 10^6 is the decimal number its six characters write (R196). -/
theorem codeString_foldl {c : BitVec 20} (hc : c.toNat ≤ 999999) :
    (codeString c).toList.foldl (fun acc b => 10 * acc + (b.toNat - 0x30)) 0 = c.toNat := by
  show 10 * (10 * (10 * (10 * (10 * (10 * 0 + _) + _) + _) + _) + _) + _ = _
  simp only [digitChar_value]
  omega

/-- Settles O42: each character is 0x30 and a decimal digit. -/
theorem codeIsSixDigits : Obligations.CodeIsSixDigits := by
  refine ⟨fun bc => ⟨codeOf_toNat bc, codeOf_toNat_le bc⟩, fun c hc => ⟨fun j => ?_, codeString_foldl hc⟩, by decide⟩
  rw [codeString_toNat]
  omega

/-! ## The completion -/

theorem genDigest_toList (s : State) : s.genDigest.toList = hmacSha1 s.keyBytes (be64 s.genCounter) :=
  digestOf_toList (hmacSha1_length _ _)

/-- Settles O28: the completion writes the results of its counter and digest, each of them by its own lemma. -/
theorem genCompletionWritesResults : Obligations.GenCompletionWritesResults := by
  refine fun s hc hk => ⟨_, (step_of_completesNext hc).trans (completeGen_of_le hk), ?_⟩
  exact ⟨genCounter_toNat s, be64_length _, fun i hi => be64_getD_toNat _ hi, genDigest_toList s, truncOffset_toNat _,
    binaryCode_toNat _, codeOf_toNat _, codeString_toNat _, rfl, rfl, rfl, ⟨rfl, rfl, rfl, rfl, rfl, rfl⟩, ⟨rfl, rfl⟩,
    ⟨rfl, rfl, rfl⟩, ⟨rfl, rfl⟩⟩

/-- Settles O31: the counter is the same number, so the digest is the same. -/
theorem resultsDependOnKeyAndCounterOnly : Obligations.ResultsDependOnKeyAndCounterOnly := by
  intro s s' t t' hc hc' hkey hcounter h h'
  obtain ⟨-, hresults⟩ := completions_sameResults hc hc' hkey rfl hcounter.symm h h'
  exact hresults

/-! ## The results while a GEN is in flight -/

/-- Registers 4 to 15 read the results alone (R30). -/
theorem regRead_of_sameResults {s t : State} (h : SameResults s t) {i : BitVec 6} (hlo : 4 ≤ i.toNat) (hhi : i.toNat ≤ 15) :
    regRead t i = regRead s i := by
  obtain ⟨hcounter, hdigest, htrunc, hoffset, hcode, hcodestr⟩ := h
  unfold regRead
  rw [hcounter, hdigest, htrunc, hoffset, hcode, hcodestr]
  interval_cases hi : i.toNat <;> rfl

/-- GEN's Accept step writes no result, whether it starts, raises or is dropped (R190). -/
theorem exec_gen_sameResults {n : Bool} {s t : State} (h : exec (.gen n) s = .next t) : SameResults s t :=
  (exec_acceptFrame (by cases n <;> decide) h).results

/-- A busy machine whose next step neither completes the GEN nor resets performs a read of the host (R12). -/
theorem step_reads_of_busy {s : State} (hb : s.busy = true) (hc : s.completesNext = false) (hr : s.resetsNext = false) :
    ∃ i, step s = .next (s.advance.readPort i) := by
  rcases step_cases s with ⟨hcomplete, -⟩ | ⟨_, _, -, hidle, -⟩ | ⟨i, _, -, hs⟩ | ⟨_, hh, -⟩ | ⟨_, -, hidle, -⟩ | ⟨-, hidle, -⟩
  case inl => exact absurd (hcomplete.symm.trans hc) (by decide)
  case inr.inr.inl => exact ⟨i, hs⟩
  case inr.inr.inr.inl => simp [State.resetsNext, hh] at hr
  all_goals exact absurd (hb.symm.trans hidle) (by decide)

/-- A step with `rst` asserted resets (R250). -/
theorem step_of_resetsNext {s : State} (h : s.resetsNext = true) : step s = .next s.advance.clear := by
  obtain ⟨rest, hh⟩ := List.head?_eq_some_iff.1 (beq_iff_eq.1 h)
  exact step_of_rst hh

/-- Settles O29: neither an Accept of GEN nor a read of the host writes a result, and the invariants hold VALID at 0. -/
theorem resultsHoldWhileBusy : Obligations.ResultsHoldWhileBusy := by
  refine ⟨fun n s t h i => regRead_of_sameResults (exec_gen_sameResults h), fun s t hinv hb hst => ⟨?valid, ?hold, ?reset⟩⟩
  case valid =>
    obtain ⟨-, hreads, -⟩ := statusFields s
    obtain ⟨hvalid, -⟩ := hinv.busy_quiet hb
    exact hreads.trans hvalid
  case hold =>
    intro hc hr
    obtain ⟨i, hs⟩ := step_reads_of_busy hb hc hr
    cases hs.symm.trans hst
    exact ⟨hb, fun _ => regRead_of_sameResults ⟨rfl, rfl, rfl, rfl, rfl, rfl⟩⟩
  case reset =>
    intro hr
    cases (step_of_resetsNext hr).symm.trans hst
    exact clear_atReset _

end Sys2Proof.Machine
end

section
/-! PROOFS. Errors (60_exceptions.md rules R222 to R226 and R236): the error procedure, the dispatch of a word by its opcode, the
one error a command can raise, and how an error ends. -/

namespace Sys2Proof.Machine

/-! ## The error procedure and the idle machine -/

/-- Settles O43, by the two cases of the error procedure. -/
theorem firstErrorIsRecorded : Obligations.FirstErrorIsRecorded :=
  ⟨⟨rfl, rfl, rfl, rfl⟩, fun e w _ => ⟨fun he => raise_of_ok he e w, fun he => raise_of_err he e w⟩⟩

/-- Settles O10: a machine without a GEN in flight has no step of its own, and a waiting host goes on. -/
theorem idleChangesNothing : Obligations.IdleChangesNothing := fun _ hb =>
  ⟨fun hh => step_of_no_action hh hb, fun _ hh => (step_of_wait hh hb).trans (by rw [advance_of_cons hh])⟩

/-! ## The dispatch by the opcode -/

/-- A legal word decodes by the row of its opcode: no other row matches it (R71, R75). -/
theorem decode_of_opcode {w : Word} {o : Opcode} (hop : w.toNat / 2 ^ 24 = o.number) (hlegal : decode w ≠ none) :
    decode w = some (o.instrOf w) := by
  obtain ⟨i, hi⟩ := Option.ne_none_iff_exists'.1 hlegal
  obtain ⟨o', hm, rfl⟩ := decode_eq_some_iff.1 hi
  obtain rfl : o' = o := Opcode.number_injective ((opcode_of_matchesWord hm).symm.trans hop)
  exact hi

/-- A legal word runs the command of its opcode (R223). -/
theorem acceptWord_of_opcode {w : Word} {o : Opcode} (hop : w.toNat / 2 ^ 24 = o.number) (hlegal : decode w ≠ none) (s : State) :
    acceptWord w s = exec (o.instrOf w) s :=
  acceptWord_of_decode (decode_of_opcode hop hlegal) s

/-- While ERR = 1 no word but CLR's has an effect, legal or not (R222, R223). -/
theorem acceptWord_of_err {w : Word} {s : State} (he : s.err = true) (hclr : decode w ≠ some .clr) : acceptWord w s = .next s := by
  cases hw : decode w with
  | none => exact (acceptWord_of_none hw s).trans (raise_of_err he _ w)
  | some i => exact (acceptWord_of_decode hw s).trans (exec_of_err (fun hi => hclr (hi ▸ hw)) he)

/-- CLR's opcode (R71). -/
theorem opcode_of_decode_clr {w : Word} (hw : decode w = some .clr) : w.toNat / 2 ^ 24 = 1 := by
  rw [← encode_of_decode hw]
  rfl

/-- Settles O44: an opcode and legality fix the row of the opcode map, and its command runs. -/
theorem dispatchOfAcceptedWords : Obligations.DispatchOfAcceptedWords := by
  refine fun w s => ⟨fun hw => acceptWord_of_none hw s, ?nop, ?clr, ?dropped, ?sym, ?ldt, ?gen⟩
  case nop => exact fun ⟨hop, hlegal⟩ => acceptWord_of_opcode (o := .nop) hop hlegal s
  case clr => exact fun ⟨hop, hlegal⟩ => acceptWord_of_opcode (o := .clr) hop hlegal s
  case dropped =>
    rintro ⟨hop, -, he⟩
    refine acceptWord_of_err he fun hclr => ?_
    have := opcode_of_decode_clr hclr
    omega
  case sym => exact fun ⟨hop, hlegal⟩ => acceptWord_of_opcode (o := .sym) hop hlegal s
  case ldt => exact fun ⟨hop, hlegal⟩ => acceptWord_of_opcode (o := .ldt) hop hlegal s
  case gen => exact fun ⟨hop, hlegal⟩ => acceptWord_of_opcode (o := .gen) hop hlegal s

/-! ## The one error of a command -/

/-- A completion writes no error field (R191, R226). -/
theorem step_completes_sameError {s t : State} (hc : s.completesNext = true) (h : step s = .next t) : SameError s t := by
  rw [step_completes_next hc h]
  exact ⟨rfl, rfl, rfl⟩

/-- If the outcome is the recording of `e` with the word `w`, the next state's error fields are those of `e` (R222). -/
theorem errorFields_of_recordError {o : Host.Outcome State Fault Refusal} {e : ErrorKind} {w : Word} {s t : State}
    (h : o = .next (s.recordError e w)) (ht : o = .next t) : t.err = true ∧ t.ecode = e.code ∧ t.errdata = w := by
  cases h.symm.trans ht
  exact ⟨rfl, rfl, rfl⟩

/-- With ERR = 0, an illegal word is recorded (R76). -/
theorem acceptWord_illegal {w : Word} {s : State} (he : s.err = false) (hw : decode w = none) :
    acceptWord w s = .next (s.recordError .illegalCommand w) :=
  (acceptWord_of_none hw s).trans (raise_of_ok he _ w)

/-- A whitespace raises nothing (R113). -/
theorem execSym_ws_keeps_ok {ch : Byte} {s t : State} (he : s.err = false) (hc : charClass ch = .ws) (h : execSym ch s = .next t) :
    t.err = false := by
  cases (execSym_ws he hc).symm.trans h
  exact he

/-- A symbol that no check of R113 turns away raises nothing, whether it is held or emits. -/
theorem execSym_symbol_keeps_ok {ch : Byte} {v : BitVec 5} {s t : State} (he : s.err = false) (hc : charClass ch = .symbol v)
    (hp : s.pendws = false) (hk : s.keylen.toNat ≤ Config.keyCap)
    (hroom : s.nbits.toNat + 5 < 8 ∨ s.keylen.toNat ≠ Config.keyCap) (h : execSym ch s = .next t) : t.err = false := by
  rcases Nat.lt_or_ge s.nbits.toNat 3 with hn | hn
  · cases (execSym_hold he hc hp hn).symm.trans h
    exact he
  · have hfull : s.keylen.toNat ≠ Config.keyCap := hroom.resolve_left (by omega)
    cases (execSym_emit he hc hp hn (lt_of_le_of_ne hk hfull)).symm.trans h
    exact he

/-- A GEN with a whole TIME raises nothing (R190). -/
theorem execGen_available_keeps_ok {n : Bool} {s t : State} (he : s.err = false) (htime : s.tmask = 0b1111#4)
    (h : execGen n s = .next t) : t.err = false := by
  cases (execGen_available he htime n).symm.trans h
  exact he

/-- NOP, CLR and LDT raise no error of their own (R100, R101, R141). -/
theorem exec_nop_clr_ldt_keeps_ok {i : Instr} {s t : State} (he : s.err = false) (hi : i = .nop ∨ i = .clr ∨ ∃ q imm, i = .ldt q imm)
    (h : exec i s = .next t) : t.err = false := by
  obtain rfl | rfl | ⟨q, imm, rfl⟩ := hi
  · cases h
    exact he
  · cases h
    rfl
  · cases (execLdt_of_ok he q imm).symm.trans h
    exact he

/-- Settles O45: an accepted word answers a next state by the invariants, and its error fields are those of the case of the
error procedure, SYM or GEN that the conditions name. -/
theorem firstConditionDecidesTheError : Obligations.FirstConditionDecidesTheError := by
  refine ⟨fun _ => acceptsNext_of_busy, fun _ _ => step_completes_sameError, fun w s hinv hb => ?_⟩
  obtain ⟨t, ht, -⟩ := acceptWord_keeps_inv hinv hb w
  have hrun {i : Instr} (hw : decode w = some i) : exec i s = .next t := (acceptWord_of_decode hw s).symm.trans ht
  refine ⟨t, ht, ?dropped, ?illegal, ?sym, ?gen, ?quiet⟩
  case dropped =>
    intro he hclr
    exact Host.Outcome.next.inj (ht.symm.trans (acceptWord_of_err he hclr))
  case illegal => exact fun he hw => errorFields_of_recordError (acceptWord_illegal he hw) ht
  case sym =>
    intro he ch hw
    obtain rfl := encode_of_decode hw
    have hsym : execSym ch s = .next t := hrun hw
    refine ⟨fun hc => ?invalid, fun hc => execSym_ws_keeps_ok he hc hsym, fun v hc => ⟨fun hp => ?pendws, fun hp hn hk => ?overflow,
      fun hp hroom => execSym_symbol_keeps_ok he hc hp hinv.keylen_le hroom hsym⟩⟩
    case invalid => exact errorFields_of_recordError (execSym_invalid he hc) hsym
    case pendws => exact errorFields_of_recordError (execSym_pendws he hc hp) hsym
    case overflow => exact errorFields_of_recordError (execSym_overflow he hc hp (by omega) hk) hsym
  case gen =>
    intro he n hw
    obtain rfl := encode_of_decode hw
    have hgen : execGen n s = .next t := hrun hw
    exact ⟨fun htime => errorFields_of_recordError (execGen_unavailable he htime n) hgen,
      fun htime => execGen_available_keeps_ok he htime hgen⟩
  case quiet =>
    rintro he (hw | hw | ⟨q, imm, hw⟩)
    · exact exec_nop_clr_ldt_keeps_ok he (.inl rfl) (hrun hw)
    · exact exec_nop_clr_ldt_keeps_ok he (.inr (.inl rfl)) (hrun hw)
    · exact exec_nop_clr_ldt_keeps_ok he (.inr (.inr ⟨q, imm, rfl⟩)) (hrun hw)

/-! ## The end of an error -/

/-- A step that accepts a word is that word's Accept (R12, R56). -/
theorem step_of_acceptsNext {s : State} {w : Word} (h : s.acceptsNext = some w) : step s = acceptWord w s.advance := by
  unfold State.acceptsNext at h
  split at h
  · next hh =>
    obtain ⟨hb, hw⟩ := Option.ite_none_left_eq_some.1 h
    cases hw
    exact step_of_word hh (Bool.eq_false_of_not_eq_true hb)
  · cases h

/-- Settles O46: with ERR = 1 the writers of the error fields are reset and CLR, and each of them clears the whole state. -/
theorem onlyClrOrResetClearsAnError : Obligations.OnlyClrOrResetClearsAnError := by
  refine fun s t he hst => ⟨fun hreset hclr => ?keeps, ?clears⟩
  case keeps =>
    obtain ⟨-, -, -, -, herror⟩ := elementsChangeOnlyByTheirWriters s t hst hreset hclr
    exact herror.resolve_right fun ⟨hok, _⟩ => absurd (he.symm.trans hok) (by decide)
  case clears =>
    rintro (hreset | hclr)
    · cases (step_of_resetsNext hreset).symm.trans hst
      exact clear_atReset _
    · have hs : step s = .next s.advance.clear := (step_of_acceptsNext hclr).trans (acceptWord_of_decode (decode_encode .clr) _)
      cases hs.symm.trans hst
      exact clear_atReset _

end Sys2Proof.Machine
end

section
/-! PROOFS. Reset (70_reset_and_hazards.md rules R250 and R251): the edge with `rst` asserted, and what the registers read
after it. -/

namespace Sys2Proof.Machine

/-! ## The reset edge -/

/-- The host's `rst` takes the port's readiness, whether or not a GEN is in flight (R56, R250). -/
theorem cmdReady_of_rst {s : State} {rest : List HostAction} (h : s.host = .rst :: rest) : s.cmdReady = false := by
  simp [State.cmdReady, State.rstAsserted, h]

/-- A register's value does not depend on the host's side, which is all that a clear keeps (R30, R250). -/
@[simp] theorem regRead_clear (s : State) (i : BitVec 6) : regRead s.clear i = regRead State.reset i := rfl

/-- Settles O13: the reset edge is CLR's clear of the state whose host has gone on. -/
theorem resetStepRestoresReset : Obligations.ResetStepRestoresReset := by
  intro s rest hh
  have hstep : step s = .next ({ s with host := rest } : State).clear := by rw [step_of_rst hh, advance_of_cons hh]
  exact ⟨cmdReady_of_rst hh, _, hstep, clear_atReset _, rfl, rfl, rfl, regRead_clear _⟩

/-! ## The values after reset -/

/-- CLR in reset state changes nothing (R101), so reset state has what a clear leaves. -/
theorem reset_atReset : AtReset State.reset := clear_atReset State.reset

/-- The registers of the map in reset state: ID and PARAM are constants, the others read 0 (R251). -/
theorem regRead_reset_mapped : ∀ k : Fin 19, regRead State.reset (BitVec.ofNat 6 k.val) =
    if BitVec.ofNat 6 k.val = 17#6 then 0x4F545031#32 else if BitVec.ofNat 6 k.val = 18#6 then 0x061E0080#32 else 0#32 := by
  decide

/-- Every slot in reset state, the reserved ones included (R31, R251). -/
theorem regRead_reset (i : BitVec 6) : regRead State.reset i =
    if i = 17#6 then 0x4F545031#32 else if i = 18#6 then 0x061E0080#32 else 0#32 := by
  rcases Nat.lt_or_ge i.toNat 19 with hmapped | hreserved
  · have hvalue := regRead_reset_mapped ⟨i.toNat, hmapped⟩
    rwa [BitVec.ofNat_toNat, BitVec.setWidth_eq] at hvalue
  · have hid : i ≠ 17#6 := by bv_omega
    have hparam : i ≠ 18#6 := by bv_omega
    rw [regRead_reserved _ hreserved, if_neg hid, if_neg hparam]

/-- Settles O14: reset state is a cleared state, and ID and PARAM are constants. -/
theorem resetRegisterValues : Obligations.ResetRegisterValues :=
  ⟨reset_atReset, regRead_reset, fun _ => ⟨rfl, rfl⟩⟩

end Sys2Proof.Machine
end
